-- ==== Sys2Proof/Word.lean ====
section
/-! DEFINITION. The widths the spec fixes (`00_scope.md` R8): registers of 8 and 16 bits, buses of 16, a snapshot of 96. -/

namespace Sys2Proof

/-- An 8-bit data or flag register, and the command word (R8). -/
abbrev Byte := BitVec 8

/-- A 16-bit register, a register pair, and the `wdata` and `rdata` buses (R8). -/
abbrev Word := BitVec 16

/-- The debugger's snapshot bus (R8, R86). -/
abbrev SnapBits := BitVec 96

end Sys2Proof
end

