-- ==== Sys2Proof/Machine/RegisterFile.lean ====
section
/-! DEFINITION. The record `RegisterFile` of `10_state.md` R13, the whole architectural state of the block, and what a
reset makes of it. -/

namespace Sys2Proof.Machine

/-- R13: "the whole architectural state of the block is one record ... with these components and no others". `h` and `l`
are kept in every configuration and tied to zero when `HAS_HL` is false (R30; log 5). -/
structure RegisterFile where
  a : Byte
  f : Byte
  b : Byte
  c : Byte
  d : Byte
  e : Byte
  h : Byte
  l : Byte
  sp : Word
  pc : Word
  deriving DecidableEq, Repr

/-- The bits of `f` that can be 1 (R15, R16). -/
def flagBitsMask : Byte := 0xF0#8

/-- What a write of `v` to `f` leaves in `f`: the low nibble is masked out (R16). -/
def maskF (v : Byte) : Byte := v &&& flagBitsMask

/-- `Reset` for the parameter `RESET_STATE = image` (`70_reset_and_hazards.md` R102, `10_state.md` R28): every component
of the image, `f` masked, `h` and `l` only when `HAS_HL`. -/
def resetRegisters (hasHL : Bool) (image : RegisterFile) : RegisterFile where
  a := image.a
  f := maskF image.f
  b := image.b
  c := image.c
  d := image.d
  e := image.e
  h := if hasHL then image.h else 0#8
  l := if hasHL then image.l else 0#8
  sp := image.sp
  pc := image.pc

end Sys2Proof.Machine
end

