-- ==== Sys2Proof/Config.lean ====
section
/-! DEFINITION. The two implementation parameters (`00_scope.md` R6, R7) and the baseline configuration. No value of this
hardware is left free, so no constant here is opaque. -/

namespace Sys2Proof

/-- The parameters that an integrator fixes for one instance (R6, R7, R99). -/
structure Config where
  /-- `HAS_HL`: the registers `h`, `l` and the pair `hl` exist (R6). -/
  hasHL : Bool
  /-- `RESET_STATE`: what the registers hold after reset (R7). -/
  resetState : Machine.RegisterFile
  deriving DecidableEq, Repr

/-- The baseline `RESET_STATE`: all zeros (R7, R28). -/
def Config.zeroImage : Machine.RegisterFile where
  a := 0#8
  f := 0#8
  b := 0#8
  c := 0#8
  d := 0#8
  e := 0#8
  h := 0#8
  l := 0#8
  sp := 0#16
  pc := 0#16

/-- The baseline configuration: `HAS_HL = true`, `RESET_STATE` all zeros (R6, R7). -/
def Config.baseline : Config where
  hasHL := true
  resetState := Config.zeroImage

/-- R7's constraint on the parameter: `RESET_STATE.f[3:0] = 0`. Reset masks `f` in any case (R102), so nothing in the
model depends on it. -/
def Config.conforming (cfg : Config) : Bool :=
  cfg.resetState.f &&& 0x0F#8 == 0#8

end Sys2Proof
end

