-- ==== Sys2Proof/Syntax.lean ====
section
/-! DEFINITION. The closed enumerations that commands name, and the commands themselves: one constructor for each row of
the opcode table (`30_encoding.md` R49). -/

namespace Sys2Proof

/-- The closed enumeration of flags, in the document's order (R17). -/
inductive Flag
  | zero | addition | halfCarry | carry
  deriving DecidableEq, Repr

/-- The 8-bit registers, in the document's order (R13, R52). -/
inductive Reg8
  | a | f | b | c | d | e | h | l
  deriving DecidableEq, Repr

/-- The register pairs; no other two registers form one (R21). -/
inductive Pair
  | af | bc | de | hl
  deriving DecidableEq, Repr

/-- The two 16-bit registers (R22, R23, R54). -/
inductive Reg16
  | sp | pc
  deriving DecidableEq, Repr

/-- A decoded command with its operands. A command that ignores `wdata`, or part of it, has no operand for those bits
(R50; `93_implementation_defined.md` U8). -/
inductive Instr
  /-- `GETF k` (R64). -/
  | getf (k : Flag)
  /-- `SETF k, v` (R63). -/
  | setf (k : Flag) (v : Bool)
  /-- `RD8 r` (R70). -/
  | rd8 (r : Reg8)
  /-- `WR8 r, v` with `v = wdata[7:0]` (R71). -/
  | wr8 (r : Reg8) (v : Byte)
  /-- `RDP p` (R75). -/
  | rdp (p : Pair)
  /-- `WRP p, v` with `v = wdata[15:0]` (R76). -/
  | wrp (p : Pair) (v : Word)
  /-- `RDW s` (R82). -/
  | rdw (w : Reg16)
  /-- `WRW s, v` with `v = wdata[15:0]` (R83). -/
  | wrw (w : Reg16) (v : Word)
  deriving DecidableEq, Repr

/-- A command as it stands on the pins: the command word and the write datum (R47). -/
structure Command where
  cmd : Byte
  wdata : Word
  deriving DecidableEq, Repr

end Sys2Proof
end

