-- ==== Sys2Proof/Machine/Operands.lean ====
section
/-! DEFINITION. The operand forms: slices and extensions between the 8-bit registers and the 16-bit buses
(`00_scope.md` R9, `20_memory.md` R37, `30_encoding.md` R50) and the register-pair view (`10_state.md` R20, R21). -/

namespace Sys2Proof

/-- The register in the high byte of a pair, the first-named one (R21, R53). -/
def Pair.hi : Pair → Reg8
  | .af => .a
  | .bc => .b
  | .de => .d
  | .hl => .h

/-- The register in the low byte of a pair (R21, R53). -/
def Pair.lo : Pair → Reg8
  | .af => .f
  | .bc => .c
  | .de => .e
  | .hl => .l

namespace Machine

/-- `zext_16` of a byte (R9, R50). -/
def zext16 (v : Byte) : Word := v.setWidth 16

/-- `zext_16` of one bit: `0x0001` or `0x0000` (R50). -/
def zextBit (v : Bool) : Word := if v then 0x0001#16 else 0x0000#16

/-- `PairValue`: the first-named register in bits 15:8, the second in bits 7:0 (R20, R33). -/
def pairValue (hi lo : Byte) : Word := hi ++ lo

/-- `SplitHigh(v) = v[15:8]` (R20). -/
def splitHigh (v : Word) : Byte := v.extractLsb' 8 8

/-- `SplitLow(v) = v[7:0]` (R20); also the operand that `WR8` takes from `wdata` (R50). -/
def splitLow (v : Word) : Byte := v.extractLsb' 0 8

end Machine

end Sys2Proof
end

