-- ==== Sys2Proof/WellFormed.lean ====
section
/-! DEFINITION. Which commands exist in a configuration: with `HAS_HL = false` there is no `h`, no `l` and no `hl`
(`10_state.md` R30, `30_encoding.md` R56). Everything else is well formed by the types. -/

namespace Sys2Proof

/-- The 8-bit register exists (R13, "present when"). -/
def Reg8.present (hasHL : Bool) : Reg8 → Bool
  | .h | .l => hasHL
  | .a | .f | .b | .c | .d | .e => true

/-- The pair exists (R21, "present when"). -/
def Pair.present (hasHL : Bool) : Pair → Bool
  | .hl => hasHL
  | .af | .bc | .de => true

/-- The command names only registers that exist. -/
def Instr.wellFormed (hasHL : Bool) : Instr → Bool
  | .getf _ => true
  | .setf _ _ => true
  | .rd8 r => r.present hasHL
  | .wr8 r _ => r.present hasHL
  | .rdp p => p.present hasHL
  | .wrp p _ => p.present hasHL
  | .rdw _ => true
  | .wrw _ _ => true

end Sys2Proof
end

