-- ==== Sys2Proof/Decode.lean ====
section
/-! DEFINITION. Decoding, total on all 256 command words (`30_encoding.md` R58), with the reserved words named (R56); then
the encoder (R49); then the opcode table itself as data (R49). -/

namespace Sys2Proof

/-- Why a command word is reserved: the three grounds of R56. -/
inductive ReservedWord
  /-- `op` 8 to 15 is unassigned. -/
  | unassignedOp
  /-- A "must be 0" bit of the format is 1 (R48). -/
  | mustBeZero
  /-- `HAS_HL` is false and the selector names `h`, `l` or `hl`. -/
  | absentRegister
  deriving DecidableEq, Repr

/-- What a command word stands for (R58). -/
inductive Decoded
  | command (i : Instr)
  | reserved (why : ReservedWord)
  deriving DecidableEq, Repr

/-- Flag selector (R51). -/
def flagOfSelector (k : BitVec 2) : Flag :=
  match k.toNat with
  | 0 => .zero
  | 1 => .addition
  | 2 => .halfCarry
  | _ => .carry

/-- 8-bit register selector (R52). -/
def reg8OfSelector (r : BitVec 3) : Reg8 :=
  match r.toNat with
  | 0 => .a
  | 1 => .f
  | 2 => .b
  | 3 => .c
  | 4 => .d
  | 5 => .e
  | 6 => .h
  | _ => .l

/-- Pair selector (R53). -/
def pairOfSelector (p : BitVec 2) : Pair :=
  match p.toNat with
  | 0 => .af
  | 1 => .bc
  | 2 => .de
  | _ => .hl

/-- Word selector (R54): `s = 0` is `sp`, `s = 1` is `pc`. -/
def reg16OfSelector (w : BitVec 1) : Reg16 :=
  match w.toNat with
  | 0 => .sp
  | _ => .pc

/-- A command, or the reserved word's reason when the register it names does not exist (R56, R58). -/
def ifPresent (present : Bool) (i : Instr) : Decoded :=
  if present then .command i else .reserved .absentRegister

/-- A command, or the reserved word's reason when a "must be 0" field is not 0 (R48, R58). -/
def ifZero (mbz : Bool) (d : Decoded) : Decoded :=
  if mbz then d else .reserved .mustBeZero

/-- `Decode` in the order of R58: bit 7, then the "must be 0" bits of the row's format, then the registers that
`HAS_HL = false` takes away. `wdata` is an operand, never part of the opcode (R59). -/
def decode (hasHL : Bool) (c : Command) : Decoded :=
  let sel2 := c.cmd.extractLsb' 0 2
  let sel3 := c.cmd.extractLsb' 0 3
  let bits32 := c.cmd.extractLsb' 2 2
  let bit3 := c.cmd.getLsbD 3
  if c.cmd.getLsbD 7 then .reserved .unassignedOp
  else match (c.cmd.extractLsb' 4 4).toNat with
    | 0 => ifZero (bits32 == 0#2) (.command (.getf (flagOfSelector sel2)))
    | 1 => ifZero (!bit3) (.command (.setf (flagOfSelector sel2) (c.cmd.getLsbD 2)))
    | 2 => ifZero (!bit3) (ifPresent ((reg8OfSelector sel3).present hasHL) (.rd8 (reg8OfSelector sel3)))
    | 3 => ifZero (!bit3)
             (ifPresent ((reg8OfSelector sel3).present hasHL) (.wr8 (reg8OfSelector sel3) (Machine.splitLow c.wdata)))
    | 4 => ifZero (bits32 == 0#2) (ifPresent ((pairOfSelector sel2).present hasHL) (.rdp (pairOfSelector sel2)))
    | 5 => ifZero (bits32 == 0#2)
             (ifPresent ((pairOfSelector sel2).present hasHL) (.wrp (pairOfSelector sel2) c.wdata))
    | 6 => ifZero (c.cmd.extractLsb' 1 3 == 0#3) (.command (.rdw (reg16OfSelector (c.cmd.extractLsb' 0 1))))
    | 7 => ifZero (c.cmd.extractLsb' 1 3 == 0#3) (.command (.wrw (reg16OfSelector (c.cmd.extractLsb' 0 1)) c.wdata))
    | _ => .reserved .unassignedOp

/-- The command that the bits `w` of an instruction stand for: bits 7:0 are the command word and bits 23:8 are `wdata`;
every bit from `nbits` up is 0 (log 6). -/
def commandOfBits (nbits w : Nat) : Command where
  cmd := BitVec.ofNat 8 (w % 2 ^ nbits)
  wdata := BitVec.ofNat 16 (w % 2 ^ nbits / 256)

/-- The instruction the decoder reads, in the baseline configuration, from a word numbered as the opcode table numbers
it. -/
def decodeTableWord (nbits w : Nat) : Option Instr :=
  match decode Config.baseline.hasHL (commandOfBits nbits w) with
  | .command i => some i
  | .reserved _ => none

/-- The selector number of a flag (R51). -/
def flagSelector : Flag → Byte
  | .zero => 0#8
  | .addition => 1#8
  | .halfCarry => 2#8
  | .carry => 3#8

/-- The selector number of an 8-bit register (R52). -/
def reg8Selector : Reg8 → Byte
  | .a => 0#8
  | .f => 1#8
  | .b => 2#8
  | .c => 3#8
  | .d => 4#8
  | .e => 5#8
  | .h => 6#8
  | .l => 7#8

/-- The selector number of a pair (R53). -/
def pairSelector : Pair → Byte
  | .af => 0#8
  | .bc => 1#8
  | .de => 2#8
  | .hl => 3#8

/-- The selector number of a 16-bit register (R54). -/
def reg16Selector : Reg16 → Byte
  | .sp => 0#8
  | .pc => 1#8

/-- The command word, as each instruction rule writes it: `0x10 | (v << 2) | k` for `SETF` (R63), the row's `match` with
the selector in its low bits for the others (R64, R70, R71, R75, R76, R82, R83). -/
def encodeCmd : Instr → Byte
  | .getf k => 0x00#8 ||| flagSelector k
  | .setf k v => 0x10#8 ||| (if v then 0x04#8 else 0x00#8) ||| flagSelector k
  | .rd8 r => 0x20#8 ||| reg8Selector r
  | .wr8 r _ => 0x30#8 ||| reg8Selector r
  | .rdp p => 0x40#8 ||| pairSelector p
  | .wrp p _ => 0x50#8 ||| pairSelector p
  | .rdw w => 0x60#8 ||| reg16Selector w
  | .wrw w _ => 0x70#8 ||| reg16Selector w

/-- The write datum. Bits that the command ignores are 0, as R60's wire form shows them. -/
def encodeWdata : Instr → Word
  | .wr8 _ v => Machine.zext16 v
  | .wrp _ v => v
  | .wrw _ v => v
  | .getf _ | .setf _ _ | .rd8 _ | .rdp _ | .rdw _ => 0#16

/-- The command on the pins for an instruction. -/
def encode (i : Instr) : Command where
  cmd := encodeCmd i
  wdata := encodeWdata i

/-- One row of R49's table. -/
structure OpcodeRow where
  mnemonic : String
  matchBits : Byte
  mask : Byte
  deriving DecidableEq, Repr

/-- R49's table, "match / mask" column. -/
def opcodeTable : List OpcodeRow :=
  [ { mnemonic := "GETF", matchBits := 0x00#8, mask := 0xFC#8 },
    { mnemonic := "SETF", matchBits := 0x10#8, mask := 0xF8#8 },
    { mnemonic := "RD8",  matchBits := 0x20#8, mask := 0xF8#8 },
    { mnemonic := "WR8",  matchBits := 0x30#8, mask := 0xF8#8 },
    { mnemonic := "RDP",  matchBits := 0x40#8, mask := 0xFC#8 },
    { mnemonic := "WRP",  matchBits := 0x50#8, mask := 0xFC#8 },
    { mnemonic := "RDW",  matchBits := 0x60#8, mask := 0xFE#8 },
    { mnemonic := "WRW",  matchBits := 0x70#8, mask := 0xFE#8 } ]

/-- "A word matches a row when `(cmd & mask) = match`" (R49). -/
def OpcodeRow.matchesWord (row : OpcodeRow) (cmd : Byte) : Bool :=
  cmd &&& row.mask == row.matchBits

/-- The mnemonic of an instruction's row (R49). -/
def mnemonic : Instr → String
  | .getf _ => "GETF"
  | .setf _ _ => "SETF"
  | .rd8 _ => "RD8"
  | .wr8 _ _ => "WR8"
  | .rdp _ => "RDP"
  | .wrp _ _ => "WRP"
  | .rdw _ => "RDW"
  | .wrw _ _ => "WRW"

end Sys2Proof
end

