-- ==== Sys2Proof/Machine/Flags.lean ====
section
/-! DEFINITION. The flag-bit packer and unpacker (`10_state.md` R18, R19) and the algorithm that sets, clears and reads
one flag of a byte (`40_flag_ops.md` R63, R64). The block computes no flag from data: it has no arithmetic (R27). -/

namespace Sys2Proof.Machine

/-- `FlagBit : Flag -> {4,5,6,7}` (R18). -/
def flagBit : Flag → Nat
  | .zero => 7
  | .addition => 6
  | .halfCarry => 5
  | .carry => 4

/-- `FlagMask k = 0x01 << FlagBit k` (R18). -/
def flagMask (k : Flag) : Byte := 0x01#8 <<< flagBit k

/-- R63's algorithm: "if `is_on`, OR the mask into `f`; else AND the bitwise complement of the mask into `f`". -/
def setFlag (f : Byte) (k : Flag) (v : Bool) : Byte :=
  if v then f ||| flagMask k else f &&& ~~~(flagMask k)

/-- R64: the bit `f[FlagBit(k)]`. -/
def getFlag (f : Byte) (k : Flag) : Bool := f.getLsbD (flagBit k)

/-- The four flags unpacked, in the order `(z, n, h, c)` of R19. -/
structure FlagQuad where
  z : Bool
  n : Bool
  h : Bool
  c : Bool
  deriving DecidableEq, Repr

/-- `PackFlags(z, n, h, c) = z || n || h || c || 0b0000` (R19). -/
def packFlags (q : FlagQuad) : Byte :=
  BitVec.ofBool q.z ++ BitVec.ofBool q.n ++ BitVec.ofBool q.h ++ BitVec.ofBool q.c ++ 0#4

/-- `UnpackFlags(byte) = (byte[7], byte[6], byte[5], byte[4])` (R19). -/
def unpackFlags (v : Byte) : FlagQuad where
  z := v.getLsbD 7
  n := v.getLsbD 6
  h := v.getLsbD 5
  c := v.getLsbD 4

/-- The component of an unpacked quadruple that a flag names (R69). -/
def FlagQuad.component (q : FlagQuad) : Flag → Bool
  | .zero => q.z
  | .addition => q.n
  | .halfCarry => q.h
  | .carry => q.c

/-- The quadruple with the component that a flag names replaced (R69). -/
def FlagQuad.replace (q : FlagQuad) (k : Flag) (v : Bool) : FlagQuad :=
  match k with
  | .zero => { q with z := v }
  | .addition => { q with n := v }
  | .halfCarry => { q with h := v }
  | .carry => { q with c := v }

end Sys2Proof.Machine
end

