-- ==== Sys2Proof/Machine/State.lean ====
section
/-! DEFINITION. The state of the machine: the register file (`10_state.md` R13) and, beside it, the model's own three
fields: the parameters, the response of the last step, and the pins of the cycles to come. -/

namespace Sys2Proof.Machine

/-- What the input pins of `30_encoding.md` R46 carry in one cycle of `clk`. -/
structure PortCycle where
  rst : Bool
  cmdValid : Bool
  cmd : Byte
  wdata : Word
  deriving DecidableEq, Repr

/-- The state. The spec's own state is `regs` and nothing else (R13, R24). -/
structure State where
  /-- The architectural state (R13). -/
  regs : RegisterFile
  /-- The parameters `HAS_HL` and `RESET_STATE` (R6, R7), constants that no step changes (log 1). -/
  cfg : Config
  /-- The output pin `rdata` in the cycle of the last step (R46, R109); nothing in the block reads it (log 3). -/
  rdata : Word
  /-- The input pins of the cycles to come, oldest first (R46, R109); idle when the list is empty (log 2). -/
  port : List PortCycle
  deriving DecidableEq, Repr

/-- The set of exception causes is empty (`60_exceptions.md` R89, R90): nobody raises a fault. -/
inductive Fault
  deriving DecidableEq, Repr

/-- Reasons for giving an instruction no meaning. -/
inductive Refusal
  /-- The instruction has no meaning in the model yet. Raised by no arm of `exec`: every command has its meaning. Safe:
  a refused step proves nothing about the block. -/
  | notModelled (mnemonic : String)
  deriving DecidableEq, Repr

/-- The machine right after a reset of an instance with the given parameters (`70_reset_and_hazards.md` R102): `Reset`
in the registers, `rdata = 0x0000`, and no pin driven yet. -/
def State.afterReset (cfg : Config) : State where
  regs := resetRegisters cfg.hasHL cfg.resetState
  cfg := cfg
  rdata := 0#16
  port := []

/-- The machine right after reset in the baseline configuration (R6, R7, R28, R102). -/
def State.reset : State := State.afterReset Config.baseline

end Sys2Proof.Machine
end

