-- ==== Sys2Proof/Machine/Ops.lean ====
section
/-! DEFINITION. The named operations over the registers and the port that every meaning is made of. The block has no memory
(`20_memory.md` R31), takes no exception and returns from none (`60_exceptions.md` R89, R94), so there is no operation for
either. -/

namespace Sys2Proof.Machine

/-- `x[r]` (R10). A register that `HAS_HL = false` takes away reads `0x00` (R30). -/
def readReg8 (s : State) : Reg8 → Byte
  | .a => s.regs.a
  | .f => s.regs.f
  | .b => s.regs.b
  | .c => s.regs.c
  | .d => s.regs.d
  | .e => s.regs.e
  | .h => if s.cfg.hasHL then s.regs.h else 0#8
  | .l => if s.cfg.hasHL then s.regs.l else 0#8

/-- `f <- v` without a mask: only for a `v` that is made from `f` by R63's algorithm. -/
def putFlags (s : State) (v : Byte) : State := { s with regs := { s.regs with f := v } }

/-- `x[r] <- v` (R10, R71): `f` is masked, every other register stores `v` as given, and a register that
`HAS_HL = false` takes away cannot be written (R30). -/
def writeReg8 (s : State) (r : Reg8) (v : Byte) : State :=
  match r with
  | .a => { s with regs := { s.regs with a := v } }
  | .f => putFlags s (maskF v)
  | .b => { s with regs := { s.regs with b := v } }
  | .c => { s with regs := { s.regs with c := v } }
  | .d => { s with regs := { s.regs with d := v } }
  | .e => { s with regs := { s.regs with e := v } }
  | .h => if s.cfg.hasHL then { s with regs := { s.regs with h := v } } else s
  | .l => if s.cfg.hasHL then { s with regs := { s.regs with l := v } } else s

/-- `x[hi(p)] || x[lo(p)]` (R20, R75). -/
def readPair (s : State) (p : Pair) : Word := pairValue (readReg8 s p.hi) (readReg8 s p.lo)

/-- Both halves of a pair in one step, the low half of `af` masked (R76). -/
def writePair (s : State) (p : Pair) (v : Word) : State :=
  writeReg8 (writeReg8 s p.hi (splitHigh v)) p.lo (splitLow v)

/-- `sp` or `pc` (R82). -/
def readReg16 (s : State) : Reg16 → Word
  | .sp => s.regs.sp
  | .pc => s.regs.pc

/-- `sp <- v` or `pc <- v` (R83): a plain register write; writing `pc` transfers no control (R84). -/
def writeReg16 (s : State) (w : Reg16) (v : Word) : State :=
  match w with
  | .sp => { s with regs := { s.regs with sp := v } }
  | .pc => { s with regs := { s.regs with pc := v } }

/-- `rdata <- v` (R10). -/
def respond (s : State) (v : Word) : State := { s with rdata := v }

/-- The end of a command whose rule gives no response: `rdata <- 0x0000` (R10, R50). -/
def respondZero (s : State) : State := respond s 0x0000#16

/-- The reset step: the whole register file becomes `Reset`, `rdata = 0x0000` (R102). -/
def applyReset (s : State) : State :=
  respondZero { s with regs := resetRegisters s.cfg.hasHL s.cfg.resetState }

/-- A reserved command word: no state change, `rdata = 0x0000` (R57). -/
def runReserved (s : State) : State := respondZero s

/-- An idle cycle: registers hold, `rdata = 0x0000` (R110). -/
def idleCycle (s : State) : State := respondZero s

/-- The pins when nobody drives them: no reset, no command (R110; log 2). -/
def idlePins : PortCycle where
  rst := false
  cmdValid := false
  cmd := 0#8
  wdata := 0#16

/-- The pins of the current cycle. -/
def currentPins (s : State) : PortCycle := s.port.headD idlePins

/-- The state with the current cycle's pins consumed. -/
def consumePins (s : State) : State := { s with port := s.port.tail }

/-- The command on the pins (R47). -/
def PortCycle.command (p : PortCycle) : Command where
  cmd := p.cmd
  wdata := p.wdata

/-- The pins of a cycle in which the executor issues a command. -/
def issue (c : Command) : PortCycle where
  rst := false
  cmdValid := true
  cmd := c.cmd
  wdata := c.wdata

/-- The pins of a cycle in which the host resets the block and no command is present. -/
def resetPins : PortCycle where
  rst := true
  cmdValid := false
  cmd := 0#8
  wdata := 0#16

end Sys2Proof.Machine
end

