-- ==== Sys2Proof/Machine/FlagOps.lean ====
section
/-! DEFINITION. The flag commands `GETF` and `SETF` (`40_flag_ops.md`). -/

namespace Sys2Proof.Machine

/-- `GETF k`: `rdata <- zext_16( x[f][FlagBit(k)] )` (R64). -/
def execGetf (k : Flag) (s : State) : Host.Outcome State Fault Refusal :=
  .next (respond s (zextBit (getFlag (readReg8 s .f) k)))

/-- `SETF k, v`: OR the mask in, or AND its complement in; nothing else changes (R63). -/
def execSetf (k : Flag) (v : Bool) (s : State) : Host.Outcome State Fault Refusal :=
  .next (respondZero (putFlags s (setFlag (readReg8 s .f) k v)))

end Sys2Proof.Machine
end

