-- ==== Sys2Proof/Machine/PairOps.lean ====
section
/-! DEFINITION. The register-pair commands `RDP` and `WRP` (`42_pair_ops.md`). -/

namespace Sys2Proof.Machine

/-- `RDP p`: `rdata <- x[hi(p)] || x[lo(p)]` (R75). -/
def execRdp (p : Pair) (s : State) : Host.Outcome State Fault Refusal :=
  .next (respond s (readPair s p))

/-- `WRP p, v`: both registers of the pair in one step (R76). -/
def execWrp (p : Pair) (v : Word) (s : State) : Host.Outcome State Fault Refusal :=
  .next (respondZero (writePair s p v))

end Sys2Proof.Machine
end

