-- ==== Sys2Proof/Machine/Reg8Ops.lean ====
section
/-! DEFINITION. The 8-bit register commands `RD8` and `WR8` (`41_reg8_ops.md`). -/

namespace Sys2Proof.Machine

/-- `RD8 r`: `rdata <- zext_16( x[r] )` (R70). -/
def execRd8 (r : Reg8) (s : State) : Host.Outcome State Fault Refusal :=
  .next (respond s (zext16 (readReg8 s r)))

/-- `WR8 r, v`: the one register, masked when it is `f` (R71). -/
def execWr8 (r : Reg8) (v : Byte) (s : State) : Host.Outcome State Fault Refusal :=
  .next (respondZero (writeReg8 s r v))

end Sys2Proof.Machine
end

