-- ==== Sys2Proof/Machine/WordOps.lean ====
section
/-! DEFINITION. The 16-bit register commands `RDW` and `WRW` (`43_word_ops.md`). -/

namespace Sys2Proof.Machine

/-- `RDW s`: `rdata <- sp` or `pc` (R82). -/
def execRdw (w : Reg16) (s : State) : Host.Outcome State Fault Refusal :=
  .next (respond s (readReg16 s w))

/-- `WRW s, v`: the one register, stored as given; no fetch, no jump (R83, R84). -/
def execWrw (w : Reg16) (v : Word) (s : State) : Host.Outcome State Fault Refusal :=
  .next (respondZero (writeReg16 s w v))

end Sys2Proof.Machine
end

