-- ==== Sys2Proof/Machine/Dispatch.lean ====
section
/-! DEFINITION. One arm for each command of the opcode table (`30_encoding.md` R49). -/

namespace Sys2Proof.Machine

/-- The effect of a decoded command. -/
def exec (i : Instr) (s : State) : Host.Outcome State Fault Refusal :=
  match i with
  | .getf k => Sys2Proof.Machine.execGetf k s
  | .setf k v => Sys2Proof.Machine.execSetf k v s
  | .rd8 r => Sys2Proof.Machine.execRd8 r s
  | .wr8 r v => Sys2Proof.Machine.execWr8 r v s
  | .rdp p => Sys2Proof.Machine.execRdp p s
  | .wrp p v => Sys2Proof.Machine.execWrp p v s
  | .rdw w => Sys2Proof.Machine.execRdw w s
  | .wrw w v => Sys2Proof.Machine.execWrw w v s

end Sys2Proof.Machine
end

