-- ==== Sys2Proof/Machine/Step.lean ====
section
/-! DEFINITION. The abstract step on a command (`00_scope.md` R5, `30_encoding.md` R47, R57, R58) and the step of the
machine: one rising edge of `clk` (`70_reset_and_hazards.md` R109). -/

namespace Sys2Proof.Machine

/-- `Step(s, (cmd, wdata))` (R47): decode, then run the command, or do nothing for a reserved word (R57). -/
def stepCommand (s : State) (c : Command) : Host.Outcome State Fault Refusal :=
  match decode s.cfg.hasHL c with
  | .command i => exec i s
  | .reserved _ => .next (runReserved s)

/-- One rising edge of `clk` with pins `p` (R109): reset wins (R105), then a command, else the state holds (R110). -/
def edge (s : State) (p : PortCycle) : Host.Outcome State Fault Refusal :=
  if p.rst then .next (applyReset s)
  else if p.cmdValid then stepCommand s p.command
  else .next (idleCycle s)

/-- One step: the edge with the current cycle's pins, which are then consumed. -/
def step (s : State) : Host.Outcome State Fault Refusal :=
  edge (consumePins s) (currentPins s)

/-- The state with the instruction whose bits are `w` presented on the port in the very next cycle (log 6, log 8). -/
def State.withFetchWord (s : State) (nbits w : Nat) : State :=
  { s with port := issue (commandOfBits nbits w) :: s.port }

end Sys2Proof.Machine
end

