-- ==== Sys2Proof/Machine/Assembly.lean ====
section
/-! DEFINITION. The textual syntax of commands (`30_encoding.md` R60), the wire form, and the two pseudo-commands (R61).
Text is a list of characters here; `assembleText` and `Instr.text` are the same on strings. -/

namespace Sys2Proof.Machine

/-- `CLRF <flag>` expands to `SETF <flag>, 0` (R61). -/
def pseudoClrf (k : Flag) : Instr := .setf k false

/-- `LDF z, n, h, c` expands to `WR8 f, PackFlags(z, n, h, c)` (R61). -/
def pseudoLdf (q : FlagQuad) : Instr := .wr8 .f (packFlags q)

/-- A digit of a hexadecimal literal. -/
def hexChar (v : BitVec 4) : Char :=
  match v.toNat with
  | 0 => '0'
  | 1 => '1'
  | 2 => '2'
  | 3 => '3'
  | 4 => '4'
  | 5 => '5'
  | 6 => '6'
  | 7 => '7'
  | 8 => '8'
  | 9 => '9'
  | 10 => 'A'
  | 11 => 'B'
  | 12 => 'C'
  | 13 => 'D'
  | 14 => 'E'
  | _ => 'F'

/-- The value of a hexadecimal digit, in either case (log 9). -/
def hexDigit? (ch : Char) : Option (BitVec 4) :=
  if '0'.toNat ≤ ch.toNat ∧ ch.toNat ≤ '9'.toNat then some (BitVec.ofNat 4 (ch.toNat - '0'.toNat))
  else if 'A'.toNat ≤ ch.toNat ∧ ch.toNat ≤ 'F'.toNat then some (BitVec.ofNat 4 (ch.toNat - 'A'.toNat + 10))
  else if 'a'.toNat ≤ ch.toNat ∧ ch.toNat ≤ 'f'.toNat then some (BitVec.ofNat 4 (ch.toNat - 'a'.toNat + 10))
  else none

/-- A byte as two hexadecimal digits. -/
def hexByte (v : Byte) : List Char := [hexChar (v.extractLsb' 4 4), hexChar (v.extractLsb' 0 4)]

/-- `imm8 ::= 0x00 .. 0xFF` (R60). -/
def imm8Text (v : Byte) : List Char := '0' :: 'x' :: hexByte v

/-- `imm16 ::= 0x0000 .. 0xFFFF` (R60). -/
def imm16Text (v : Word) : List Char := '0' :: 'x' :: (hexByte (splitHigh v) ++ hexByte (splitLow v))

/-- Two hexadecimal digits as a byte. -/
def byteOfHex? (p q : Char) : Option Byte :=
  match hexDigit? p, hexDigit? q with
  | some u, some v => some (u ++ v)
  | _, _ => none

/-- Reads an `imm8`: `0x` and exactly two digits (log 9). -/
def imm8? : List Char → Option Byte
  | ['0', 'x', p, q] => byteOfHex? p q
  | _ => none

/-- Reads an `imm16`: `0x` and exactly four digits (log 9). -/
def imm16? : List Char → Option Word
  | ['0', 'x', p, q, r, t] =>
    match byteOfHex? p q, byteOfHex? r t with
    | some hi, some lo => some (pairValue hi lo)
    | _, _ => none
  | _ => none

/-- R60's `flag`. -/
def flagText : Flag → List Char
  | .zero => "Zero".toList
  | .addition => "Addition".toList
  | .halfCarry => "HalfCarry".toList
  | .carry => "Carry".toList

/-- R60's `bit`. -/
def bitText (v : Bool) : List Char := if v then ['1'] else ['0']

/-- R60's `reg8`. -/
def reg8Text : Reg8 → List Char
  | .a => ['a']
  | .f => ['f']
  | .b => ['b']
  | .c => ['c']
  | .d => ['d']
  | .e => ['e']
  | .h => ['h']
  | .l => ['l']

/-- R60's `pair`. -/
def pairText : Pair → List Char
  | .af => ['a', 'f']
  | .bc => ['b', 'c']
  | .de => ['d', 'e']
  | .hl => ['h', 'l']

/-- R60's `word`. -/
def reg16Text : Reg16 → List Char
  | .sp => ['s', 'p']
  | .pc => ['p', 'c']

/-- Reads a flag by its long or its short name (R60). -/
def flag? (t : List Char) : Option Flag :=
  if t = "Zero".toList ∨ t = ['Z'] then some .zero
  else if t = "Addition".toList ∨ t = ['N'] then some .addition
  else if t = "HalfCarry".toList ∨ t = ['H'] then some .halfCarry
  else if t = "Carry".toList ∨ t = ['C'] then some .carry
  else none

/-- Reads a bit, `0 | 1` or `false | true` (R60). -/
def bit? (t : List Char) : Option Bool :=
  if t = ['1'] ∨ t = "true".toList then some true
  else if t = ['0'] ∨ t = "false".toList then some false
  else none

/-- Reads an 8-bit register's name (R60). -/
def reg8? : List Char → Option Reg8
  | ['a'] => some .a
  | ['f'] => some .f
  | ['b'] => some .b
  | ['c'] => some .c
  | ['d'] => some .d
  | ['e'] => some .e
  | ['h'] => some .h
  | ['l'] => some .l
  | _ => none

/-- Reads a pair's name (R60). -/
def pair? : List Char → Option Pair
  | ['a', 'f'] => some .af
  | ['b', 'c'] => some .bc
  | ['d', 'e'] => some .de
  | ['h', 'l'] => some .hl
  | _ => none

/-- Reads a 16-bit register's name (R60). -/
def reg16? : List Char → Option Reg16
  | ['s', 'p'] => some .sp
  | ['p', 'c'] => some .pc
  | _ => none

/-- The operands' separator as it is written. -/
def commaSpace : List Char := [',', ' ']

/-- A command in R60's syntax: the mnemonic in capitals, then the operands separated by commas. -/
def instrChars : Instr → List Char
  | .getf k => "GETF ".toList ++ flagText k
  | .setf k v => "SETF ".toList ++ (flagText k ++ (commaSpace ++ bitText v))
  | .rd8 r => "RD8 ".toList ++ reg8Text r
  | .wr8 r v => "WR8 ".toList ++ (reg8Text r ++ (commaSpace ++ imm8Text v))
  | .rdp p => "RDP ".toList ++ pairText p
  | .wrp p v => "WRP ".toList ++ (pairText p ++ (commaSpace ++ imm16Text v))
  | .rdw w => "RDW ".toList ++ reg16Text w
  | .wrw w v => "WRW ".toList ++ (reg16Text w ++ (commaSpace ++ imm16Text v))

/-- A finished token in front of the later ones; an empty one is dropped. -/
def flushToken (cur : List Char) (rest : List (List Char)) : List (List Char) :=
  if cur.isEmpty then rest else cur :: rest

/-- Tokens: spaces separate, a comma is a token of its own. `cur` is the token read so far. -/
def lex : List Char → List Char → List (List Char)
  | [], cur => flushToken cur []
  | ch :: rest, cur =>
    if ch = ' ' then flushToken cur (lex rest [])
    else if ch = ',' then flushToken cur ([','] :: lex rest [])
    else lex rest (cur ++ [ch])

/-- A command with one operand. -/
def parseUnary (m x : List Char) : Option Instr :=
  if m = "GETF".toList then (flag? x).map .getf
  else if m = "CLRF".toList then (flag? x).map pseudoClrf
  else if m = "RD8".toList then (reg8? x).map .rd8
  else if m = "RDP".toList then (pair? x).map .rdp
  else if m = "RDW".toList then (reg16? x).map .rdw
  else none

/-- A command with two operands. -/
def parseBinary (m x y : List Char) : Option Instr :=
  if m = "SETF".toList then
    match flag? x, bit? y with
    | some k, some v => some (.setf k v)
    | _, _ => none
  else if m = "WR8".toList then
    match reg8? x, imm8? y with
    | some r, some v => some (.wr8 r v)
    | _, _ => none
  else if m = "WRP".toList then
    match pair? x, imm16? y with
    | some p, some v => some (.wrp p v)
    | _, _ => none
  else if m = "WRW".toList then
    match reg16? x, imm16? y with
    | some w, some v => some (.wrw w v)
    | _, _ => none
  else none

/-- `LDF z, n, h, c` (R61). -/
def parseLdf (z n h c : List Char) : Option Instr :=
  match bit? z, bit? n, bit? h, bit? c with
  | some vz, some vn, some vh, some vc => some (pseudoLdf { z := vz, n := vn, h := vh, c := vc })
  | _, _, _, _ => none

/-- A line of tokens as a command; none where the line is not of R60's or R61's syntax. -/
def parseTokens : List (List Char) → Option Instr
  | [m, x] => parseUnary m x
  | [m, x, [','], y] => parseBinary m x y
  | [m, z, [','], n, [','], h, [','], c] => if m = "LDF".toList then parseLdf z n h c else none
  | _ => none

/-- R60's syntax, read. -/
def assembleChars (t : List Char) : Option Instr := parseTokens (lex t [])

/-- R60's syntax, written. -/
def instrText (i : Instr) : String := String.ofList (instrChars i)

/-- R60's syntax, read from a string. -/
def assembleText (t : String) : Option Instr := assembleChars t.toList

/-- The wire form `cmd/wdata` (R60), `0x51/0x1234` for `WRP bc, 0x1234`. -/
def wireForm (c : Command) : String :=
  String.ofList (imm8Text c.cmd ++ ('/' :: imm16Text c.wdata))

/-- How a response is written, `-> 0x....` (R60). -/
def responseForm (v : Word) : String :=
  String.ofList ("-> ".toList ++ imm16Text v)

end Sys2Proof.Machine
end

