-- ==== Sys2Proof/Machine/System.lean ====
section
/-! DEFINITION. Several emulated CPUs: "a model of `n` instances is the product of `n` independent copies of this model"
(`60_exceptions.md` R99). -/

namespace Sys2Proof.Machine

/-- The instances of a system; each has its own registers, port and parameters. -/
abbrev System := List State

/-- One step of instance `n`; none if there is no such instance. -/
def stepInstance (sys : System) (n : Nat) : Option (Host.Outcome System Fault Refusal) :=
  match sys[n]? with
  | none => none
  | some s =>
    match step s with
    | .next t => some (.next (sys.set n t))
    | .fault r => some (.fault r)
    | .refused r => some (.refused r)

end Sys2Proof.Machine
end

