-- ==== Sys2Proof/Machine/Snapshot.lean ====
section
/-! DEFINITION. What the output pins show: the debugger's snapshot (`44_snapshot.md` R86) and the response bus
(`70_reset_and_hazards.md` R109). Both are observations: they change nothing (R87). -/

namespace Sys2Proof.Machine

/-- `Snapshot(s) = a || f || b || c || d || e || H || L || sp || pc`, with `H = L = 0x00` when `HAS_HL` is false (R86). -/
def snapshot (s : State) : SnapBits :=
  s.regs.a ++ s.regs.f ++ s.regs.b ++ s.regs.c ++ s.regs.d ++ s.regs.e ++ readReg8 s .h ++ readReg8 s .l
    ++ s.regs.sp ++ s.regs.pc

/-- The output pin `rdata` in a cycle with registered state `s` and input pins `p` (R109): `0x0000` during reset and in
an idle cycle, the command's response otherwise. -/
def rdataPin (s : State) (p : PortCycle) : Word :=
  if p.rst || !p.cmdValid then 0x0000#16
  else match stepCommand s p.command with
    | .next t => t.rdata
    | .fault _ => 0x0000#16
    | .refused _ => 0x0000#16

/-- The output pin `dbg_snap` in a cycle with registered state `s`: the registers before the edge (R87, R109). -/
def dbgSnapPin (s : State) : SnapBits := snapshot s

end Sys2Proof.Machine
end

