-- ==== Sys2Proof/Machine/Run.lean ====
section
/-! DEFINITION. Runs (`70_reset_and_hazards.md` R112): the abstract model's sequence of steps, one for each command and each
reset, with its responses; and the same at the pins, one edge at a time (R109). -/

namespace Sys2Proof.Machine

/-- A step of the abstract model: "one command of the executor, or one reset" (R4). -/
inductive Event
  | reset
  | command (c : Command)
  deriving DecidableEq, Repr

/-- The abstract step that a cycle's pins make, none for an idle cycle; reset wins over a command (R105, R109, R110). -/
def PortCycle.event (p : PortCycle) : Option Event :=
  if p.rst then some .reset
  else if p.cmdValid then some (.command p.command)
  else none

/-- One abstract step. -/
def stepEvent (s : State) : Event → Host.Outcome State Fault Refusal
  | .reset => .next (applyReset s)
  | .command c => stepCommand s c

/-- A run of the abstract model: the final state and the list of responses (R112). -/
def eventRun (s : State) : List Event → State × List Word
  | [] => (s, [])
  | ev :: rest =>
    match stepEvent s ev with
    | .next t => ((eventRun t rest).1, t.rdata :: (eventRun t rest).2)
    | .fault r => nomatch r
    | .refused _ => (s, [])

/-- A run of commands alone. -/
def commandRun (s : State) (cs : List Command) : State × List Word := eventRun s (cs.map .command)

/-- `n` edges at the pins: the final state, and for each edge its pins and what `rdata` showed. -/
def pinRun : Nat → State → State × List (PortCycle × Word)
  | 0, s => (s, [])
  | n + 1, s =>
    match step s with
    | .next t => ((pinRun n t).1, (currentPins s, t.rdata) :: (pinRun n t).2)
    | .fault r => nomatch r
    | .refused _ => (s, [])

end Sys2Proof.Machine
end

