-- ==== Sys2Proof/Machine/Access.lean ====
section
/-! DEFINITION. Who reads and writes what: the access matrix of `10_state.md` R26, and what a command leaves in the storage
it writes, for "the value left by the most recent earlier write" of `20_memory.md` R42. -/

namespace Sys2Proof.Machine

/-- A write command: bit 4 of its word is 1 (R49). -/
def isWrite : Instr → Bool
  | .setf _ _ | .wr8 _ _ | .wrp _ _ | .wrw _ _ => true
  | .getf _ | .rd8 _ | .rdp _ | .rdw _ => false

/-- A row of R26's matrix: one component of the register file. -/
inductive Component
  | byte (r : Reg8)
  | word (w : Reg16)
  deriving DecidableEq, Repr

/-- What a component holds, as a 16-bit value. -/
def Component.value (s : State) : Component → Word
  | .byte r => zext16 (readReg8 s r)
  | .word w => readReg16 s w

/-- R26, marks `r`: the command reads the component. -/
def reads : Instr → Component → Bool
  | .getf _, .byte r => r == .f
  | .setf _ _, .byte r => r == .f
  | .rd8 r, .byte r' => r' == r
  | .rdp p, .byte r => r == p.hi || r == p.lo
  | .rdw w, .word w' => w' == w
  | .wr8 _ _, _ => false
  | .wrp _ _, _ => false
  | .wrw _ _, _ => false
  | .getf _, .word _ => false
  | .setf _ _, .word _ => false
  | .rd8 _, .word _ => false
  | .rdp _, .word _ => false
  | .rdw _, .byte _ => false

/-- R26, marks `w`: the command writes the component. -/
def writes : Instr → Component → Bool
  | .setf _ _, .byte r => r == .f
  | .wr8 r _, .byte r' => r' == r
  | .wrp p _, .byte r => r == p.hi || r == p.lo
  | .wrw w _, .word w' => w' == w
  | .getf _, _ => false
  | .rd8 _, _ => false
  | .rdp _, _ => false
  | .rdw _, _ => false
  | .setf _ _, .word _ => false
  | .wr8 _ _, .word _ => false
  | .wrp _ _, .word _ => false
  | .wrw _ _, .byte _ => false

/-- The byte that a command stores in an 8-bit register other than `f`, through the 8-bit or the pair view (R71, R76). -/
def storedByte (r : Reg8) : Instr → Option Byte
  | .wr8 r' v => if r' = r then some v else none
  | .wrp p v => if p.hi = r then some (splitHigh v) else if p.lo = r then some (splitLow v) else none
  | .getf _ | .setf _ _ | .rd8 _ | .rdp _ | .rdw _ | .wrw _ _ => none

/-- The value that a command gives a flag, through the flag, the 8-bit or the pair view (R27, R63, R71, R76). -/
def storedFlag (k : Flag) : Instr → Option Bool
  | .setf k' v => if k' = k then some v else none
  | .wr8 r v => if r = .f then some (v.getLsbD (flagBit k)) else none
  | .wrp p v => if p = .af then some (v.getLsbD (flagBit k)) else none
  | .getf _ | .rd8 _ | .rdp _ | .rdw _ | .wrw _ _ => none

/-- The value that a command stores in a 16-bit register (R83). -/
def storedWord (w : Reg16) : Instr → Option Word
  | .wrw w' v => if w' = w then some v else none
  | .getf _ | .setf _ _ | .rd8 _ | .wr8 _ _ | .rdp _ | .wrp _ _ | .rdw _ => none

/-- The value left by the most recent write among the commands, where `stored` says what one command writes; the initial
value if none of them writes. A reserved word writes nothing (R42, R57). -/
def lastStored {α : Type} (hasHL : Bool) (stored : Instr → Option α) (init : α) (cs : List Command) : α :=
  cs.foldl (fun acc c =>
    match decode hasHL c with
    | .command i => (stored i).getD acc
    | .reserved _ => acc) init

/-- What the most recent writes through any view left in an 8-bit register: for `f` the pack of the four flags, each by the
last command that wrote it; for every other register the last byte stored there; what `s` holds where no command wrote
(R27, R42). -/
def lastByte (s : State) (cs : List Command) (r : Reg8) : Byte :=
  let lastFlag := fun k => lastStored s.cfg.hasHL (storedFlag k) (getFlag s.regs.f k) cs
  if r = .f then
    packFlags { z := lastFlag .zero, n := lastFlag .addition, h := lastFlag .halfCarry, c := lastFlag .carry }
  else lastStored s.cfg.hasHL (storedByte r) (readReg8 s r) cs

end Sys2Proof.Machine
end

