-- ==== Sys2Proof/Safety.lean ====
section
/-! DEFINITION. What counts as a safe run: the state invariant (`10_state.md` R16, R25, R30), the executor's contract
(`70_reset_and_hazards.md` R108), and a step that never stops (`60_exceptions.md` R89). -/

namespace Sys2Proof.Machine

/-- The low-nibble invariant (R16) on one register file. -/
abbrev RegisterFile.lowNibbleClear (x : RegisterFile) : Prop := x.f &&& 0x0F#8 = 0#8

/-- `h` and `l` are tied to `0x00` when `HAS_HL` is false (R30; log 5). -/
abbrev RegisterFile.absentTied (hasHL : Bool) (x : RegisterFile) : Prop :=
  hasHL = false → x.h = 0#8 ∧ x.l = 0#8

/-- `Inv(s)` of R25, with R30's tie. -/
abbrev State.Inv (s : State) : Prop := s.regs.lowNibbleClear ∧ s.regs.absentTied s.cfg.hasHL

/-- The cycle breaks no obligation of the executor: it issues no reserved word (R57, R108). -/
def PortCycle.honoursContract (hasHL : Bool) (p : PortCycle) : Bool :=
  match p.event with
  | some (.command c) =>
    match decode hasHL c with
    | .command _ => true
    | .reserved _ => false
  | some .reset => true
  | none => true

/-- A step is safe when it answers a next state that keeps the invariant. -/
def SafeStep (s : State) : Prop := ∃ t, step s = .next t ∧ t.Inv

end Sys2Proof.Machine
end

