-- ==== Sys2Proof/Certificates/Slice0/Obligations.lean ====
section
/-! DEFINITION. The statements for the provers. Each docstring names the rule of spec/ it formalises, or the section it
rests on where the spec marks the rule as its own decision or inference. Every statement is about both values of `HAS_HL`
and about every `RESET_STATE`, unless it says otherwise. -/

open Sys2Proof Sys2Proof.Machine

/-! ## Encoding -/

/-- Words written out from the encodings of `30_encoding.md` section 2 (and `95_test_vectors.md` 2.1), for every row of the
opcode table, and reserved words of each kind. The encoding is the spec's own decision D5, D6. -/
def Obligations.WrittenWordsDecode : Prop :=
  decode true { cmd := 0b00000010#8, wdata := 0xFFFF#16 } = .command (.getf .halfCarry) ∧
  decode true { cmd := 0b00010111#8, wdata := 0x0000#16 } = .command (.setf .carry true) ∧
  decode true { cmd := 0b00010000#8, wdata := 0x0000#16 } = .command (.setf .zero false) ∧
  decode true { cmd := 0b00100101#8, wdata := 0x0000#16 } = .command (.rd8 .e) ∧
  decode true { cmd := 0b00110010#8, wdata := 0xFFAB#16 } = .command (.wr8 .b 0xAB#8) ∧
  decode true { cmd := 0b01000001#8, wdata := 0x0000#16 } = .command (.rdp .bc) ∧
  decode true { cmd := 0b01010011#8, wdata := 0x014D#16 } = .command (.wrp .hl 0x014D#16) ∧
  decode true { cmd := 0b01100000#8, wdata := 0x0000#16 } = .command (.rdw .sp) ∧
  decode true { cmd := 0b01110001#8, wdata := 0x0100#16 } = .command (.wrw .pc 0x0100#16) ∧
  decode true { cmd := 0b00000100#8, wdata := 0x0000#16 } = .reserved .mustBeZero ∧
  decode true { cmd := 0b01011000#8, wdata := 0x1111#16 } = .reserved .mustBeZero ∧
  decode true { cmd := 0b10000000#8, wdata := 0xFFFF#16 } = .reserved .unassignedOp ∧
  decode false { cmd := 0b00110111#8, wdata := 0x004D#16 } = .reserved .absentRegister ∧
  decode false { cmd := 0b01010011#8, wdata := 0x014D#16 } = .reserved .absentRegister ∧
  decode false { cmd := 0b00100101#8, wdata := 0x0000#16 } = .command (.rd8 .e)

/-- Decode and encode agree: the command that encodes a well-formed instruction, with every operand at every value, decodes
to that instruction (`30_encoding.md` section 4; the encoding is the spec's own decision D5). -/
def Obligations.DecodeInvertsEncode : Prop :=
  ∀ (hasHL : Bool) (i : Instr), i.wellFormed hasHL = true → decode hasHL (encode i) = .command i

/-- "`Encode(Decode(w)) = w` for every non-reserved `w`" (`30_encoding.md` section 4, decision D5), and what a word decodes
to is well formed. Of `wdata` the encoding keeps the bits that the command takes as its operand (section 3, decision D9).
That it puts zeros in the bits that the command ignores is the model's choice (log 6), after the wire form that section 5
writes (decision D17). -/
def Obligations.EncodeInvertsDecode : Prop :=
  ∀ (hasHL : Bool) (c : Command) (i : Instr), decode hasHL c = .command i →
    i.wellFormed hasHL = true ∧ (encode i).cmd = c.cmd ∧
    (encode i).wdata =
      match i with
      | .wr8 _ _ => c.wdata &&& 0x00FF#16
      | .wrp _ _ => c.wdata
      | .wrw _ _ => c.wdata
      | .getf _ | .setf _ _ | .rd8 _ | .rdp _ | .rdw _ => 0x0000#16

/-- The decoder reads exactly the rows of the opcode table: a word that decodes matches one row, that of its mnemonic; no
other row; and a word that matches a row decodes to an instruction of that row, but for the words that name a register
which `HAS_HL = false` takes away (`30_encoding.md` section 2 and section 4, decision D5). -/
def Obligations.DecodeFollowsTheOpcodeTable : Prop :=
  ∀ (hasHL : Bool) (c : Command),
    (∀ i, decode hasHL c = .command i →
      ∀ row ∈ opcodeTable, (row.matchesWord c.cmd = true ↔ row.mnemonic = mnemonic i)) ∧
    (∀ row ∈ opcodeTable, row.matchesWord c.cmd = true →
      ∃ i, decode true c = .command i ∧ mnemonic i = row.mnemonic ∧
        decode hasHL c = if i.wellFormed hasHL then .command i else .reserved .absentRegister)

/-- The reserved words, exhaustively (`30_encoding.md` section 4, decisions D5, D16): 216 words with `HAS_HL = true`, six
more with `HAS_HL = false`. -/
def Obligations.ReservedWordsAreExactlyThese : Prop :=
  ∀ c : Command,
    let n := c.cmd.toNat
    let always := (0x04 ≤ n ∧ n ≤ 0x0F) ∨ (0x18 ≤ n ∧ n ≤ 0x1F) ∨ (0x28 ≤ n ∧ n ≤ 0x2F) ∨ (0x38 ≤ n ∧ n ≤ 0x3F) ∨
      (0x44 ≤ n ∧ n ≤ 0x4F) ∨ (0x54 ≤ n ∧ n ≤ 0x5F) ∨ (0x62 ≤ n ∧ n ≤ 0x6F) ∨ (0x72 ≤ n ∧ n ≤ 0x7F) ∨ 0x80 ≤ n
    ((∃ why, decode true c = .reserved why) ↔ always) ∧
    ((∃ why, decode false c = .reserved why) ↔
      always ∨ n = 0x26 ∨ n = 0x27 ∨ n = 0x36 ∨ n = 0x37 ∨ n = 0x43 ∨ n = 0x53)

/-- Operand assembly (`30_encoding.md` section 3, decisions D8, D9): every read command and `SETF` ignore all of `wdata`, and
`WR8` takes `wdata[7:0]` only. `cmd[4] = 0` is a read command's word, `op = 1` is `SETF`, `op = 3` is `WR8`. -/
def Obligations.UnusedWdataBitsAreIgnored : Prop :=
  ∀ (hasHL : Bool) (cmd : Byte) (u v : Word),
    ((cmd.getLsbD 4 = false ∨ cmd.extractLsb' 4 4 = 1#4) →
      decode hasHL { cmd := cmd, wdata := u } = decode hasHL { cmd := cmd, wdata := v }) ∧
    (cmd.extractLsb' 4 4 = 3#4 → u.extractLsb' 0 8 = v.extractLsb' 0 8 →
      decode hasHL { cmd := cmd, wdata := u } = decode hasHL { cmd := cmd, wdata := v })

/-- The selector numbers (`30_encoding.md` section 3, decision D6): flag `k` is bit `7 - k` with mask `0x80 >> k`; pair `p`
is made of the 8-bit registers `2p`, high, and `2p + 1`, low, and every 8-bit register is a half of exactly one pair. -/
def Obligations.SelectorsNameTheirStorage : Prop :=
  (∀ k : Flag, flagBit k = 7 - (flagSelector k).toNat ∧ flagMask k = 0x80#8 >>> (flagSelector k).toNat) ∧
  (∀ p : Pair, (reg8Selector p.hi).toNat = 2 * (pairSelector p).toNat ∧
    (reg8Selector p.lo).toNat = 2 * (pairSelector p).toNat + 1) ∧
  (∀ r : Reg8, ∃ p : Pair, (r = p.hi ∨ r = p.lo) ∧ ∀ q : Pair, (r = q.hi ∨ r = q.lo) → q = p) ∧
  reg16Selector .sp = 0#8 ∧ reg16Selector .pc = 1#8

/-- The textual syntax of `30_encoding.md` section 5 (decision D17): a command written in it reads back as that command. How
many digits an immediate has is the model's choice (log 9). -/
def Obligations.AssemblingTheTextGivesTheCommand : Prop :=
  ∀ i : Instr, assembleChars (instrChars i) = some i

/-- The pseudo-commands (`30_encoding.md` section 5, decision D17): `CLRF k` clears the one flag, `LDF z, n, h, c` gives all
four flags their values and nothing else. -/
def Obligations.PseudoCommandsClearAndLoadFlags : Prop :=
  (∀ (s : State) (k : Flag),
    exec (pseudoClrf k) s =
      .next { s with regs := { s.regs with f := s.regs.f &&& ~~~(flagMask k) }, rdata := 0x0000#16 }) ∧
  (∀ (s : State) (q : FlagQuad), ∃ t, exec (pseudoLdf q) s = .next t ∧
    unpackFlags t.regs.f = q ∧ t = { s with regs := { s.regs with f := t.regs.f }, rdata := 0x0000#16 })

/-! ## Reset, idle cycles, reserved words, the step -/

/-- A reset edge (`70_reset_and_hazards.md` section 1, decisions D2, D13): whatever the state, and whether or not a command
is on the pins in the same cycle, every register becomes the configured value, `f` masked, and `rdata` is `0x0000`. `h` and
`l` become `0x00` when they do not exist: that tie is the model's choice (log 5). -/
def Obligations.ResetLoadsTheConfiguredImage : Prop :=
  ∀ (s : State) (p : PortCycle) (rest : List PortCycle), s.port = p :: rest → p.rst = true →
    step s = .next
      { regs :=
          { a := s.cfg.resetState.a, f := s.cfg.resetState.f &&& 0xF0#8,
            b := s.cfg.resetState.b, c := s.cfg.resetState.c,
            d := s.cfg.resetState.d, e := s.cfg.resetState.e,
            h := if s.cfg.hasHL then s.cfg.resetState.h else 0x00#8,
            l := if s.cfg.hasHL then s.cfg.resetState.l else 0x00#8,
            sp := s.cfg.resetState.sp, pc := s.cfg.resetState.pc },
        cfg := s.cfg, rdata := 0x0000#16, port := rest }

/-- The baseline configuration after reset (`10_state.md` section 7, decision D2): every register is zero. -/
def Obligations.BaselineResetIsAllZeros : Prop :=
  (∀ r : Reg8, readReg8 State.reset r = 0x00#8) ∧ (∀ w : Reg16, readReg16 State.reset w = 0x0000#16) ∧
  (∀ k : Flag, getFlag State.reset.regs.f k = false) ∧ State.reset.cfg.hasHL = true

/-- "a reset followed by a command sequence behaves exactly like a fresh instance given the same sequence"
(`70_reset_and_hazards.md` section 1, decision D13): the same final registers and the same responses, whatever the state
before the reset. -/
def Obligations.ResetThenRunIsAFreshInstance : Prop :=
  ∀ (s : State) (evs : List Event),
    (eventRun s (.reset :: evs)).1.regs = (eventRun (State.afterReset s.cfg) evs).1.regs ∧
    (eventRun s (.reset :: evs)).2 = 0x0000#16 :: (eventRun (State.afterReset s.cfg) evs).2

/-- A step with a command on the pins that decodes runs the decoded, well-formed instruction, in the state whose current
cycle's pins are consumed and that is otherwise unchanged (`30_encoding.md` section 1, `70_reset_and_hazards.md` section 4).
The list of pins to come is the model's own (log 2). -/
def Obligations.StepRunsTheDecodedInstruction : Prop :=
  ∀ (s : State) (p : PortCycle) (rest : List PortCycle) (i : Instr),
    s.port = p :: rest → p.rst = false → p.cmdValid = true →
    decode s.cfg.hasHL { cmd := p.cmd, wdata := p.wdata } = .command i →
    i.wellFormed s.cfg.hasHL = true ∧ step s = exec i { s with port := rest }

/-- Under the executor's contract, which is to issue no reserved word (`30_encoding.md` section 4, `70_reset_and_hazards.md`
section 3), every command cycle runs a well-formed instruction, and a cycle breaks the contract only by a reserved word. -/
def Obligations.ContractedCyclesRunInstructions : Prop :=
  ∀ (s : State) (p : PortCycle), p.rst = false → p.cmdValid = true →
    (p.honoursContract s.cfg.hasHL = true →
      ∃ i, i.wellFormed s.cfg.hasHL = true ∧ decode s.cfg.hasHL p.command = .command i ∧ edge s p = exec i s) ∧
    (p.honoursContract s.cfg.hasHL = false → ∃ why, decode s.cfg.hasHL p.command = .reserved why)

/-- A reserved word changes no state and returns `0x0000` (`30_encoding.md` section 4, decision D7). -/
def Obligations.ReservedWordDoesNothing : Prop :=
  ∀ (s : State) (p : PortCycle) (rest : List PortCycle) (why : ReservedWord),
    s.port = p :: rest → p.rst = false → p.cmdValid = true →
    decode s.cfg.hasHL { cmd := p.cmd, wdata := p.wdata } = .reserved why →
    step s = .next { s with port := rest, rdata := 0x0000#16 }

/-- An idle cycle changes nothing and gives `rdata = 0x0000`, whatever `cmd` and `wdata` carry (`70_reset_and_hazards.md`
section 4, decision D14). That the pins are idle once no cycle is listed is the model's choice (log 2). -/
def Obligations.IdleCycleHoldsTheState : Prop :=
  (∀ (s : State) (p : PortCycle) (rest : List PortCycle), s.port = p :: rest → p.rst = false → p.cmdValid = false →
    step s = .next { s with port := rest, rdata := 0x0000#16 }) ∧
  (∀ s : State, s.port = [] → step s = .next { s with rdata := 0x0000#16 })

/-- R89: the block raises no exception, and its step is total: on every state, every command word and every `wdata`. -/
def Obligations.NoStepEverStops : Prop :=
  (∀ s : State, ∃ t, step s = .next t) ∧
  (∀ (s : State) (cmd : Byte) (wdata : Word), ∃ t, stepCommand s { cmd := cmd, wdata := wdata } = .next t) ∧
  (Fault → False)

/-- The invariant holds after every reset (`10_state.md` section 6 and section 7), for a `RESET_STATE` that breaks R7's
constraint too, since reset masks `f`. -/
def Obligations.ResetStateMeetsTheInvariant : Prop :=
  ∀ cfg : Config, (State.afterReset cfg).Inv

/-- Every step keeps the invariant: `f[3:0] = 0` on every write path, reset and idle cycles among them (`10_state.md`
section 2 and section 6). That `h` and `l` stay tied to zero when they do not exist is the form the model chose among those
of R30 (log 5). So every step from such a state is safe: it answers a next state, and that meets the invariant again. -/
def Obligations.EveryStepKeepsTheInvariant : Prop :=
  (∀ s t : State, s.Inv → step s = .next t → t.Inv) ∧ (∀ s : State, s.Inv → SafeStep s)

/-- R67: after any sequence of `SETF` commands the low nibble of `f` is 0, and more generally after any sequence of commands,
from every reachable state: the premise is the low-nibble invariant, which holds of those. -/
def Obligations.LowNibbleStaysClearAfterAnyCommands : Prop :=
  ∀ (s : State) (cs : List Command), s.regs.lowNibbleClear → (commandRun s cs).1.regs.f &&& 0x0F#8 = 0#8

/-- "Every state that satisfies `Inv` is reachable from reset" by commands that are not reserved (`10_state.md` section 6, an
inference the spec marks as its own). -/
def Obligations.EveryInvariantStateIsReachable : Prop :=
  ∀ (cfg : Config) (target : RegisterFile), target.lowNibbleClear → target.absentTied cfg.hasHL →
    ∃ cs : List Command, (∀ c ∈ cs, ∃ i, decode cfg.hasHL c = .command i) ∧
      (commandRun (State.afterReset cfg) cs).1.regs = target

/-- R12: given the parameters, the state after any finite sequence of resets and commands, and every response, is a function
of that sequence (and the registers it starts from) alone; and no step of it fails, so there is one response for each. -/
def Obligations.RunIsAFunctionOfItsSequence : Prop :=
  ∀ (s u : State) (evs : List Event), s.regs = u.regs → s.cfg = u.cfg →
    (eventRun s evs).1.regs = (eventRun u evs).1.regs ∧ (eventRun s evs).2 = (eventRun u evs).2 ∧
    (eventRun s evs).2.length = evs.length

/-- The pins realise the abstract model: "the sequence of steps of the abstract model is the sequence of edges with `rst = 1`
or `cmd_valid = 1`, in time order" (`70_reset_and_hazards.md` section 4, decisions D4, D15). After all listed cycles the
registers are those of the abstract run over the non-idle cycles, the responses in those cycles are its responses, and
`rdata` is `0x0000` in every idle cycle. -/
def Obligations.PinsRealiseTheAbstractSteps : Prop :=
  ∀ s : State,
    let pins := pinRun s.port.length s
    let run := eventRun s (s.port.filterMap PortCycle.event)
    pins.1.regs = run.1.regs ∧ pins.1.port = [] ∧
    (pins.2.filter fun x => x.1.event.isSome).map Prod.snd = run.2 ∧
    pins.2.map Prod.fst = s.port ∧
    ∀ x ∈ pins.2, x.1.event = none → x.2 = 0x0000#16

/-- The response that a step leaves is what the pin `rdata` shows in that cycle, formed from the state before the edge and
the input pins (`70_reset_and_hazards.md` section 4, decision D15; that the step keeps it in State is log 3). -/
def Obligations.StepLeavesTheCyclesResponse : Prop :=
  ∀ (s t : State) (p : PortCycle) (rest : List PortCycle), s.port = p :: rest → step s = .next t →
    t.rdata = rdataPin s p

/-- "Every read command returns the value left by the most recent earlier write to the storage it names (a write through any
view of that storage: a flag, the 8-bit register, the pair)", or the initial value if there was none (`20_memory.md`
section 5). After any commands, each of the four read commands: of every 8-bit register that exists, of every pair that
exists, of every flag and of both 16-bit registers. What is read of `f` needs the low-nibble invariant of the initial
state. -/
def Obligations.ReadsSeeTheMostRecentWrite : Prop :=
  ∀ (s : State) (cs : List Command),
    let t := (commandRun s cs).1
    (∀ r : Reg8, r.present s.cfg.hasHL = true → (r = .f → s.regs.lowNibbleClear) →
      exec (.rd8 r) t = .next { t with rdata := zext16 (lastByte s cs r) }) ∧
    (∀ p : Pair, p.present s.cfg.hasHL = true → (p = .af → s.regs.lowNibbleClear) →
      exec (.rdp p) t = .next { t with rdata := lastByte s cs p.hi ++ lastByte s cs p.lo }) ∧
    (∀ k : Flag, exec (.getf k) t =
        .next { t with rdata := zextBit (lastStored s.cfg.hasHL (storedFlag k) (getFlag s.regs.f k) cs) }) ∧
    (∀ w : Reg16, exec (.rdw w) t =
        .next { t with rdata := lastStored s.cfg.hasHL (storedWord w) (readReg16 s w) cs })

/-! ## Flags -/

/-- R18: the flag-to-bit map: the table's rows, `FlagMask = 0x01 << FlagBit`, injective, with image bits 7:4; and from
`f = 0` setting each flag gives the document's literal. -/
def Obligations.FlagMapIsTheDocuments : Prop :=
  (flagBit .zero = 7 ∧ flagBit .addition = 6 ∧ flagBit .halfCarry = 5 ∧ flagBit .carry = 4) ∧
  (flagMask .zero = 0x80#8 ∧ flagMask .addition = 0x40#8 ∧ flagMask .halfCarry = 0x20#8 ∧ flagMask .carry = 0x10#8) ∧
  (∀ k : Flag, flagMask k = 0x01#8 <<< flagBit k) ∧
  (∀ k k' : Flag, flagBit k = flagBit k' → k = k') ∧
  (∀ n : Nat, (∃ k, flagBit k = n) ↔ (4 ≤ n ∧ n ≤ 7)) ∧
  (∀ (s : State) (k : Flag), s.regs.f = 0x00#8 → ∃ t, exec (.setf k true) s = .next t ∧
    t.regs.f = match k with
      | .zero => 0b1000_0000#8
      | .addition => 0b0100_0000#8
      | .halfCarry => 0b0010_0000#8
      | .carry => 0b0001_0000#8)

/-- The packer and the unpacker (`10_state.md` section 2; the four-at-once form is an inference the spec marks as its own):
each undoes the other up to the low nibble, and `f` in a state that meets the invariant is the pack of its flags. -/
def Obligations.PackAndUnpackAreInverse : Prop :=
  (∀ q : FlagQuad, unpackFlags (packFlags q) = q) ∧
  (∀ v : Byte, packFlags (unpackFlags v) = v &&& 0xF0#8 ∧ (packFlags (unpackFlags v) = v ↔ v &&& 0x0F#8 = 0#8)) ∧
  (∀ (v : Byte) (k : Flag), getFlag v k = (unpackFlags v).component k ∧ (getFlag v k = true ↔ v &&& flagMask k ≠ 0#8)) ∧
  (∀ s : State, s.regs.lowNibbleClear →
    s.regs.f = packFlags { z := getFlag s.regs.f .zero, n := getFlag s.regs.f .addition,
                           h := getFlag s.regs.f .halfCarry, c := getFlag s.regs.f .carry })

/-- R63, whole: the encoding; the pseudocode, as an equation for the whole next state, so that nothing but `f` and the
response changes; bit by bit, exactly the named flag changes, to `v`; a flag that already has the value leaves `f` as it is;
the low nibble stays clear; any other command leaves `f`, or gives it a value that does not depend on the flags there were
("the only command that changes one flag without being given the other three"); the two examples. -/
def Obligations.SetfSetsExactlyTheNamedFlag : Prop :=
  (∀ (hasHL : Bool) (k : Flag) (v : Bool) (wdata : Word),
    decode hasHL { cmd := 0x10#8 ||| ((BitVec.ofBool v).setWidth 8 <<< 2) ||| flagSelector k, wdata := wdata } =
      .command (.setf k v)) ∧
  (∀ (s : State) (k : Flag) (v : Bool),
    ∃ t, exec (.setf k v) s = .next t ∧
      t = { s with
        regs := { s.regs with
          f := if v = true then s.regs.f ||| (0x80#8 >>> (flagSelector k).toNat)
               else s.regs.f &&& ~~~(0x80#8 >>> (flagSelector k).toNat) },
        rdata := 0x0000#16 } ∧
      (∀ n, n < 8 → t.regs.f.getLsbD n = if n = flagBit k then v else s.regs.f.getLsbD n) ∧
      (getFlag s.regs.f k = v → t.regs.f = s.regs.f) ∧
      (s.regs.lowNibbleClear → t.regs.lowNibbleClear)) ∧
  (∀ (s : State) (i : Instr), (∀ k v, i ≠ .setf k v) → ∃ t, exec i s = .next t ∧
    (t.regs.f = s.regs.f ∨ ∀ u : State, ∃ x, exec i u = .next x ∧ x.regs.f = t.regs.f)) ∧
  (∀ s : State, s.regs.f = 0x00#8 → ∃ t, exec (.setf .zero true) s = .next t ∧ t.regs.f = 0x80#8) ∧
  (∀ s : State, s.regs.f = 0xF0#8 → ∃ t, exec (.setf .carry false) s = .next t ∧ t.regs.f = 0xE0#8)

/-- `GETF k` completes in every state, returns the one flag bit, `0x0001` or `0x0000` (decision D8), and changes nothing but
the response (`40_flag_ops.md` section 1). -/
def Obligations.GetfReturnsTheNamedFlag : Prop :=
  ∀ (s : State) (k : Flag),
    exec (.getf k) s =
      .next { s with rdata := if s.regs.f &&& flagMask k ≠ 0#8 then 0x0001#16 else 0x0000#16 }

/-- R65: set-then-get, for every flag, every bit value and every state. -/
def Obligations.GetAfterSetReturnsTheBit : Prop :=
  ∀ (s : State) (k : Flag) (v : Bool), ∃ t u,
    exec (.setf k v) s = .next t ∧ exec (.getf k) t = .next u ∧ u.rdata = (BitVec.ofBool v).setWidth 16

/-- R66: non-interference between flags; the masks are disjoint; and `SETF` changes no data register, not `sp`, not `pc`. -/
def Obligations.SettingOneFlagLeavesTheRest : Prop :=
  (∀ (s : State) (k k' : Flag) (v : Bool), k ≠ k' → ∃ t u u',
    exec (.setf k v) s = .next t ∧ exec (.getf k') s = .next u ∧ exec (.getf k') t = .next u' ∧ u'.rdata = u.rdata) ∧
  (∀ k k' : Flag, k ≠ k' → flagMask k &&& flagMask k' = 0x00#8) ∧
  (∀ (s : State) (k : Flag) (v : Bool), ∃ t, exec (.setf k v) s = .next t ∧
    (∀ r : Reg8, r ≠ .f → readReg8 t r = readReg8 s r) ∧ t.regs.sp = s.regs.sp ∧ t.regs.pc = s.regs.pc)

/-- R68: `SETF` twice in a row is `SETF` once. -/
def Obligations.SetfIsIdempotent : Prop :=
  ∀ (s : State) (k : Flag) (v : Bool), ∃ t, exec (.setf k v) s = .next t ∧ exec (.setf k v) t = .next t

/-- Consequences the spec derives from `SETF` and `GETF` (`40_flag_ops.md` section 2): different flags commute; on one flag
the last `SETF` wins; `SETF` replaces one component of the unpacked flags; four `SETF`, one for each flag, in any order,
leave the pack of the four bits, as `WR8 f` of that pack does. The premise of the last clause is the low-nibble invariant. -/
def Obligations.SetfComposesLikeIndependentFlags : Prop :=
  (∀ (s : State) (k k' : Flag) (v v' : Bool), k ≠ k' → ∃ t u w,
    exec (.setf k v) s = .next t ∧ exec (.setf k' v') t = .next w ∧
    exec (.setf k' v') s = .next u ∧ exec (.setf k v) u = .next w) ∧
  (∀ (s : State) (k : Flag) (v v' : Bool), ∃ t w,
    exec (.setf k v) s = .next t ∧ exec (.setf k v') t = .next w ∧ exec (.setf k v') s = .next w) ∧
  (∀ (s : State) (k : Flag) (v : Bool), ∃ t, exec (.setf k v) s = .next t ∧
    unpackFlags t.regs.f = (unpackFlags s.regs.f).replace k v) ∧
  (∀ (s : State) (q : FlagQuad) (ks : List Flag), s.regs.lowNibbleClear →
    ks.Perm [Flag.zero, Flag.addition, Flag.halfCarry, Flag.carry] →
    (commandRun s (ks.map fun k => encode (.setf k (q.component k)))).1.regs = { s.regs with f := packFlags q } ∧
    ∃ t, exec (.wr8 .f (packFlags q)) s = .next t ∧ t.regs = { s.regs with f := packFlags q })

/-- R27: a flag is written only by `SETF` naming it, `WR8 f`, `WRP af` and reset; and it is read only by `GETF` naming it,
`RD8 f`, `RDP af` and `SETF` (and the snapshot): with the flag's bit flipped, any other command gives the same response and
the same registers but for that bit, and a `SETF` gives the same response, the same other registers and the same other
bits of `f`. -/
def Obligations.FlagsHaveNoOtherWritersOrReaders : Prop :=
  (∀ (s t : State) (p : PortCycle) (k : Flag), edge s p = .next t → getFlag t.regs.f k ≠ getFlag s.regs.f k →
    p.rst = true ∨
    (p.cmdValid = true ∧ ∃ v w x,
      decode s.cfg.hasHL p.command = .command (.setf k v) ∨ decode s.cfg.hasHL p.command = .command (.wr8 .f w) ∨
      decode s.cfg.hasHL p.command = .command (.wrp .af x))) ∧
  (∀ (s : State) (k : Flag) (i : Instr), i ≠ .getf k → i ≠ .rd8 .f → i ≠ .rdp .af → ∃ t u,
    exec i s = .next t ∧ exec i { s with regs := { s.regs with f := s.regs.f ^^^ flagMask k } } = .next u ∧
    u.rdata = t.rdata ∧ { u.regs with f := 0#8 } = { t.regs with f := 0#8 } ∧
    u.regs.f ||| flagMask k = t.regs.f ||| flagMask k)

/-! ## 8-bit registers -/

/-- `RD8 r` completes in every state, returns the register's byte zero-extended and changes nothing but the response
(`41_reg8_ops.md` section 1, decisions D8, D10); where the invariant holds, `RD8 f` has bits 3:0 zero. With `HAS_HL = false`
there is no `RD8 h` or `RD8 l`: the model then answers as for the reserved word (log 5). -/
def Obligations.Rd8ReturnsTheRegister : Prop :=
  (∀ (s : State) (r : Reg8), exec (.rd8 r) s = .next { s with
    rdata := match r with
      | .a => s.regs.a.setWidth 16
      | .f => s.regs.f.setWidth 16
      | .b => s.regs.b.setWidth 16
      | .c => s.regs.c.setWidth 16
      | .d => s.regs.d.setWidth 16
      | .e => s.regs.e.setWidth 16
      | .h => if s.cfg.hasHL = true then s.regs.h.setWidth 16 else 0x0000#16
      | .l => if s.cfg.hasHL = true then s.regs.l.setWidth 16 else 0x0000#16 }) ∧
  (∀ s : State, s.regs.lowNibbleClear → ∃ t, exec (.rd8 .f) s = .next t ∧ t.rdata &&& 0xFF0F#16 = 0x0000#16)

/-- `WR8 r, v` completes in every state and changes exactly the one register, `f` masked with `0xF0` (`41_reg8_ops.md`
section 1, decisions D9, D10). With `HAS_HL = false` there is no `WR8 h` or `WR8 l`: the model then writes nothing, as for
the reserved word (log 5). -/
def Obligations.Wr8StoresTheByte : Prop :=
  ∀ (s : State) (r : Reg8) (v : Byte), exec (.wr8 r v) s = .next { s with
    rdata := 0x0000#16
    regs := match r with
      | .a => { s.regs with a := v }
      | .f => { s.regs with f := v &&& 0xF0#8 }
      | .b => { s.regs with b := v }
      | .c => { s.regs with c := v }
      | .d => { s.regs with d := v }
      | .e => { s.regs with e := v }
      | .h => if s.cfg.hasHL = true then { s.regs with h := v } else s.regs
      | .l => if s.cfg.hasHL = true then { s.regs with l := v } else s.regs }

/-- Write-then-read of an 8-bit register that exists (`41_reg8_ops.md` section 2, an inference the spec marks as its own):
the byte comes back, for `f` its high nibble, exactly when the low nibble is zero the whole byte. -/
def Obligations.Rd8AfterWr8 : Prop :=
  ∀ (s : State) (r : Reg8) (v : Byte), r.present s.cfg.hasHL = true → ∃ t u,
    exec (.wr8 r v) s = .next t ∧ exec (.rd8 r) t = .next u ∧
    (r ≠ .f → u.rdata = v.setWidth 16) ∧
    (r = .f → u.rdata = (v &&& 0xF0#8).setWidth 16 ∧ (u.rdata = v.setWidth 16 ↔ v &&& 0x0F#8 = 0#8))

/-- Independence (`41_reg8_ops.md` section 2, an inference the spec marks as its own): `WR8` leaves every other 8-bit
register, `sp`, `pc` and, unless it writes `f`, every flag; writes to different registers commute; the last writer wins. -/
def Obligations.Wr8LeavesTheRest : Prop :=
  (∀ (s : State) (r : Reg8) (v : Byte), ∃ t, exec (.wr8 r v) s = .next t ∧
    (∀ r', r' ≠ r → readReg8 t r' = readReg8 s r') ∧ (∀ w, readReg16 t w = readReg16 s w) ∧
    (r ≠ .f → ∀ k, getFlag t.regs.f k = getFlag s.regs.f k) ∧ t.cfg = s.cfg ∧ t.port = s.port) ∧
  (∀ (s : State) (r : Reg8) (v v' : Byte), ∃ t u,
    exec (.wr8 r v) s = .next t ∧ exec (.wr8 r v') t = .next u ∧ exec (.wr8 r v') s = .next u) ∧
  (∀ (s : State) (r r' : Reg8) (v v' : Byte), r ≠ r' → ∃ t t' u,
    exec (.wr8 r v) s = .next t ∧ exec (.wr8 r' v') t = .next u ∧
    exec (.wr8 r' v') s = .next t' ∧ exec (.wr8 r v) t' = .next u)

/-- `f` through the 8-bit port and through the flag commands is the same storage (`41_reg8_ops.md` section 2, an inference
the spec marks as its own). The premise of the second clause is the low-nibble invariant. -/
def Obligations.FlagsAndTheByteOfFAreOneStorage : Prop :=
  (∀ (s : State) (v : Byte), ∃ t, exec (.wr8 .f v) s = .next t ∧
    exec (.getf .zero) t = .next { t with rdata := zextBit (v.getLsbD 7) } ∧
    exec (.getf .addition) t = .next { t with rdata := zextBit (v.getLsbD 6) } ∧
    exec (.getf .halfCarry) t = .next { t with rdata := zextBit (v.getLsbD 5) } ∧
    exec (.getf .carry) t = .next { t with rdata := zextBit (v.getLsbD 4) }) ∧
  (∀ s : State, s.regs.lowNibbleClear → ∃ u z n h c,
    exec (.rd8 .f) s = .next u ∧ exec (.getf .zero) s = .next z ∧ exec (.getf .addition) s = .next n ∧
    exec (.getf .halfCarry) s = .next h ∧ exec (.getf .carry) s = .next c ∧
    u.rdata = zext16 (packFlags { z := z.rdata.getLsbD 0, n := n.rdata.getLsbD 0,
                                  h := h.rdata.getLsbD 0, c := c.rdata.getLsbD 0 })) ∧
  (∀ (s : State) (k : Flag) (v : Bool), ∃ t u u', exec (.setf k v) s = .next t ∧
    exec (.rd8 .f) s = .next u ∧ exec (.rd8 .f) t = .next u' ∧
    ∀ n, n < 16 → u'.rdata.getLsbD n = if n = flagBit k then v else u.rdata.getLsbD n)

/-! ## Register pairs -/

/-- R75, whole: the encoding, reserved for `hl` when `HAS_HL = false`; the result, high register in bits 15:8 and low
register in bits 7:0, and nothing else changed; `RDP af` has bits 3:0 zero where the invariant holds; after the baseline
reset every `RDP` returns `0x0000`; the example. -/
def Obligations.RdpReturnsHighThenLow : Prop :=
  (∀ (p : Pair) (wdata : Word),
    decode true { cmd := 0x40#8 ||| pairSelector p, wdata := wdata } = .command (.rdp p) ∧
    decode false { cmd := 0x40#8 ||| pairSelector p, wdata := wdata } =
      if p = .hl then .reserved .absentRegister else .command (.rdp p)) ∧
  (∀ (s : State) (p : Pair), p.present s.cfg.hasHL = true → exec (.rdp p) s = .next { s with
    rdata := match p with
      | .af => (s.regs.a.setWidth 16 <<< 8) ||| s.regs.f.setWidth 16
      | .bc => (s.regs.b.setWidth 16 <<< 8) ||| s.regs.c.setWidth 16
      | .de => (s.regs.d.setWidth 16 <<< 8) ||| s.regs.e.setWidth 16
      | .hl => (s.regs.h.setWidth 16 <<< 8) ||| s.regs.l.setWidth 16 }) ∧
  (∀ s : State, s.regs.lowNibbleClear → ∃ t, exec (.rdp .af) s = .next t ∧ t.rdata &&& 0x000F#16 = 0x0000#16) ∧
  (∀ p : Pair, ∃ t, exec (.rdp p) State.reset = .next t ∧ t.rdata = 0x0000#16) ∧
  (∀ s : State, s.regs.b = 0x12#8 → s.regs.c = 0x34#8 → ∃ t, exec (.rdp .bc) s = .next t ∧ t.rdata = 0x1234#16)

/-- `WRP p, v` completes in every state, writes both registers of the pair in one step, `f` masked, and changes nothing else
(`42_pair_ops.md` section 1, decision D19). With `HAS_HL = false` there is no `WRP hl`: the model then writes nothing, and
`RDP hl` returns `0x0000`, as for the reserved words (log 5). -/
def Obligations.WrpWritesBothHalves : Prop :=
  (∀ (s : State) (p : Pair) (v : Word), exec (.wrp p v) s = .next { s with
    rdata := 0x0000#16
    regs := match p with
      | .af => { s.regs with a := v.extractLsb' 8 8, f := v.extractLsb' 0 8 &&& 0xF0#8 }
      | .bc => { s.regs with b := v.extractLsb' 8 8, c := v.extractLsb' 0 8 }
      | .de => { s.regs with d := v.extractLsb' 8 8, e := v.extractLsb' 0 8 }
      | .hl => if s.cfg.hasHL = true then { s.regs with h := v.extractLsb' 8 8, l := v.extractLsb' 0 8 } else s.regs }) ∧
  (∀ s : State, s.cfg.hasHL = false → exec (.rdp .hl) s = .next { s with rdata := 0x0000#16 })

/-- A pair command is exactly its two 8-bit commands, in either order, but in one step (`42_pair_ops.md` section 2, an
inference the spec marks as its own). -/
def Obligations.PairCommandIsItsTwoByteCommands : Prop :=
  (∀ (s : State) (p : Pair), ∃ t hi lo, exec (.rdp p) s = .next t ∧ exec (.rd8 p.hi) s = .next hi ∧
    exec (.rd8 p.lo) s = .next lo ∧ t.rdata = pairValue (splitLow hi.rdata) (splitLow lo.rdata)) ∧
  (∀ (s : State) (p : Pair) (v : Word), ∃ t u u', exec (.wrp p v) s = .next t ∧
    exec (.wr8 p.hi (v.extractLsb' 8 8)) s = .next u ∧ exec (.wr8 p.lo (v.extractLsb' 0 8)) u = .next t ∧
    exec (.wr8 p.lo (v.extractLsb' 0 8)) s = .next u' ∧ exec (.wr8 p.hi (v.extractLsb' 8 8)) u' = .next t)

/-- R78: the round trip for `bc`, `de` and, where it exists, `hl`; conversely, writing back to a pair what it reads changes
nothing, for `af` too where the low-nibble invariant holds, as it does in every reachable state. -/
def Obligations.PairRoundTrip : Prop :=
  (∀ (s : State) (p : Pair) (v : Word), p ≠ .af → p.present s.cfg.hasHL = true → ∃ t u,
    exec (.wrp p v) s = .next t ∧ exec (.rdp p) t = .next u ∧ u.rdata = v) ∧
  (∀ (s : State) (p : Pair), s.regs.lowNibbleClear → ∃ t u,
    exec (.rdp p) s = .next t ∧ exec (.wrp p t.rdata) s = .next u ∧ u.regs = s.regs)

/-- The round trip for `af` holds up to the mask (`42_pair_ops.md` section 2, decision D19; `90_conflicts.md` C2), and exactly
when the low nibble is zero for the whole value. -/
def Obligations.AfRoundTripIsMasked : Prop :=
  ∀ (s : State) (v : Word), ∃ t u, exec (.wrp .af v) s = .next t ∧ exec (.rdp .af) t = .next u ∧
    u.rdata = v &&& 0xFFF0#16 ∧ (u.rdata = v ↔ v &&& 0x000F#16 = 0x0000#16)

/-- R80: the split law, both directions, for the pairs that exist: the halves of a written pair read back as its two bytes,
the low half of `af` masked; and two bytes written to the halves of a pair other than `af` read back joined. -/
def Obligations.PairSplitsIntoItsHalves : Prop :=
  (∀ (s : State) (p : Pair) (v : Word), p.present s.cfg.hasHL = true → ∃ t hi lo,
    exec (.wrp p v) s = .next t ∧ exec (.rd8 p.hi) t = .next hi ∧ exec (.rd8 p.lo) t = .next lo ∧
    hi.rdata = (v.extractLsb' 8 8).setWidth 16 ∧
    lo.rdata = if p = .af then (v.extractLsb' 0 8 &&& 0xF0#8).setWidth 16 else (v.extractLsb' 0 8).setWidth 16) ∧
  (∀ (s : State) (p : Pair) (u w : Byte), p ≠ .af → p.present s.cfg.hasHL = true → ∃ t t' x,
    exec (.wr8 p.hi u) s = .next t ∧ exec (.wr8 p.lo w) t = .next t' ∧ exec (.rdp p) t' = .next x ∧
    x.rdata = u ++ w)

/-- R34: accesses of different widths to the same storage always agree, for every pair that exists and every value: a pair
write reads back as the two bytes; a byte write to either half is seen through the pair, the other half as before, so two
byte writes read back as the pair; the flags after `WRP af` and after `WR8 f` are the bits of the value; `RD8 f` and
`RDP af` show the bit that `SETF` changed, every other bit as before. What is written to `f` is masked. The rule's two
literal examples come first. -/
def Obligations.MixedWidthAccessesAgree : Prop :=
  (∀ s : State, ∃ t t' x, exec (.wr8 .b 0x12#8) s = .next t ∧ exec (.wr8 .c 0x34#8) t = .next t' ∧
    exec (.rdp .bc) t' = .next x ∧ x.rdata = 0x1234#16) ∧
  (∀ s : State, ∃ t x y, exec (.wrp .de 0xBEEF#16) s = .next t ∧ exec (.rd8 .d) t = .next x ∧ x.rdata = 0x00BE#16 ∧
    exec (.rd8 .e) t = .next y ∧ y.rdata = 0x00EF#16) ∧
  (∀ (s : State) (p : Pair) (v : Word), p.present s.cfg.hasHL = true → ∃ t x y,
    exec (.wrp p v) s = .next t ∧ exec (.rd8 p.hi) t = .next x ∧ exec (.rd8 p.lo) t = .next y ∧
    x.rdata = (v.extractLsb' 8 8).setWidth 16 ∧
    y.rdata = if p = .af then (v.extractLsb' 0 8 &&& 0xF0#8).setWidth 16 else (v.extractLsb' 0 8).setWidth 16) ∧
  (∀ (s : State) (p : Pair) (v : Byte), p.present s.cfg.hasHL = true → ∃ x hi hi' lo lo',
    exec (.rdp p) s = .next x ∧ exec (.wr8 p.hi v) s = .next hi ∧ exec (.rdp p) hi = .next hi' ∧
    exec (.wr8 p.lo v) s = .next lo ∧ exec (.rdp p) lo = .next lo' ∧
    hi'.rdata = v ++ x.rdata.extractLsb' 0 8 ∧
    lo'.rdata = x.rdata.extractLsb' 8 8 ++ if p = .af then v &&& 0xF0#8 else v) ∧
  (∀ (s : State) (p : Pair) (u w : Byte), p.present s.cfg.hasHL = true → ∃ t t' x,
    exec (.wr8 p.lo w) s = .next t ∧ exec (.wr8 p.hi u) t = .next t' ∧ exec (.rdp p) t' = .next x ∧
    x.rdata = u ++ if p = .af then w &&& 0xF0#8 else w) ∧
  (∀ (s : State) (v : Word) (k : Flag), ∃ t x, exec (.wrp .af v) s = .next t ∧ exec (.getf k) t = .next x ∧
    x.rdata = zextBit (v.getLsbD (flagBit k))) ∧
  (∀ (s : State) (v : Byte) (k : Flag), ∃ t x, exec (.wr8 .f v) s = .next t ∧ exec (.getf k) t = .next x ∧
    x.rdata = zextBit (v.getLsbD (flagBit k))) ∧
  (∀ (s : State) (k : Flag) (v : Bool), ∃ t f f' af af', exec (.setf k v) s = .next t ∧
    exec (.rd8 .f) s = .next f ∧ exec (.rd8 .f) t = .next f' ∧
    exec (.rdp .af) s = .next af ∧ exec (.rdp .af) t = .next af' ∧
    (∀ n, n < 16 → f'.rdata.getLsbD n = if n = flagBit k then v else f.rdata.getLsbD n) ∧
    (∀ n, n < 16 → af'.rdata.getLsbD n = if n = flagBit k then v else af.rdata.getLsbD n))

/-- Independence of pairs (`42_pair_ops.md` section 2, an inference the spec marks as its own): `WRP` leaves the registers of
the other pairs, `sp`, `pc` and, unless it writes `af`, the flags; `WRP af` gives the flags the bits 7:4 of its operand;
the last writer wins; writes to different pairs commute. -/
def Obligations.WrpLeavesTheRest : Prop :=
  (∀ (s : State) (p : Pair) (v : Word), ∃ t, exec (.wrp p v) s = .next t ∧
    (∀ q, q ≠ p → readReg8 t q.hi = readReg8 s q.hi ∧ readReg8 t q.lo = readReg8 s q.lo ∧
      readPair t q = readPair s q) ∧
    (∀ w, readReg16 t w = readReg16 s w) ∧
    (p ≠ .af → ∀ k, getFlag t.regs.f k = getFlag s.regs.f k) ∧
    (p = .af → unpackFlags t.regs.f = unpackFlags (v.extractLsb' 0 8)) ∧ t.cfg = s.cfg ∧ t.port = s.port) ∧
  (∀ (s : State) (p : Pair) (v v' : Word), ∃ t u,
    exec (.wrp p v) s = .next t ∧ exec (.wrp p v') t = .next u ∧ exec (.wrp p v') s = .next u) ∧
  (∀ (s : State) (p q : Pair) (v v' : Word), p ≠ q → ∃ t t' u,
    exec (.wrp p v) s = .next t ∧ exec (.wrp q v') t = .next u ∧
    exec (.wrp q v') s = .next t' ∧ exec (.wrp p v) t' = .next u)

/-! ## 16-bit registers and control transfer -/

/-- `RDW` and `WRW` complete in every state: `RDW` returns the register and changes nothing else, `WRW` stores the value as
given in the one register (`43_word_ops.md` section 1, decision D11). -/
def Obligations.RdwAndWrwMoveTheWholeRegister : Prop :=
  (∀ s : State, exec (.rdw .sp) s = .next { s with rdata := s.regs.sp }) ∧
  (∀ s : State, exec (.rdw .pc) s = .next { s with rdata := s.regs.pc }) ∧
  (∀ (s : State) (v : Word), exec (.wrw .sp v) s =
    .next { s with regs := { s.regs with sp := v }, rdata := 0x0000#16 }) ∧
  (∀ (s : State) (v : Word), exec (.wrw .pc v) s =
    .next { s with regs := { s.regs with pc := v }, rdata := 0x0000#16 })

/-- Laws of the 16-bit commands (`43_word_ops.md` section 2, an inference the spec marks as its own): round trip with no
mask; independence of the other register and of every 8-bit register, pair and flag; the last writer wins; and `SETF`,
`WR8`, `WRP` leave `sp` and `pc`. -/
def Obligations.Reg16RoundTripAndIndependence : Prop :=
  (∀ (s : State) (w : Reg16) (v : Word), ∃ t u, exec (.wrw w v) s = .next t ∧ exec (.rdw w) t = .next u ∧ u.rdata = v ∧
    (∀ w', w' ≠ w → readReg16 t w' = readReg16 s w') ∧ (∀ r, readReg8 t r = readReg8 s r) ∧
    (∀ p, readPair t p = readPair s p) ∧ (∀ k, getFlag t.regs.f k = getFlag s.regs.f k)) ∧
  (∀ (s : State) (w : Reg16) (v v' : Word), ∃ t u,
    exec (.wrw w v) s = .next t ∧ exec (.wrw w v') t = .next u ∧ exec (.wrw w v') s = .next u) ∧
  (∀ (s : State) (i : Instr), (∀ w v, i ≠ .wrw w v) → ∃ t, exec i s = .next t ∧
    t.regs.sp = s.regs.sp ∧ t.regs.pc = s.regs.pc)

/-- R84: no control transfer. No command other than `WRW pc` changes `pc`, and none advances it by its own length; `WRW pc` is
a register write and nothing more; which commands come next is not for any command to say: the pins to come are the same
after it. -/
def Obligations.NoCommandTransfersControl : Prop :=
  (∀ (s t : State) (c : Command), stepCommand s c = .next t →
    t.port = s.port ∧ (t.regs.pc = s.regs.pc ∨ ∃ v, decode s.cfg.hasHL c = .command (.wrw .pc v) ∧ t.regs.pc = v)) ∧
  (∀ (s : State) (v : Word), exec (.wrw .pc v) s =
    .next { s with regs := { s.regs with pc := v }, rdata := 0x0000#16 })

/-- Over a whole edge `sp` and `pc` change only by reset or by `WRW` naming them (`10_state.md` section 4). -/
def Obligations.Reg16ChangesOnlyByWrwOrReset : Prop :=
  ∀ (s t : State) (p : PortCycle) (w : Reg16), edge s p = .next t → readReg16 t w ≠ readReg16 s w →
    p.rst = true ∨ (p.cmdValid = true ∧ ∃ v, decode s.cfg.hasHL p.command = .command (.wrw w v))

/-! ## Whole-machine rules -/

/-- The access matrix, writes (`10_state.md` section 6, an inference the spec marks as its own): every command completes, a
component that the matrix does not mark `w` is left exactly as it was, a read command changes no register, and a write
command returns `0x0000`; the parameters and the pins to come are never touched. -/
def Obligations.UnmarkedComponentsAreUnchanged : Prop :=
  ∀ (i : Instr) (s : State), ∃ t, exec i s = .next t ∧
    (∀ comp, writes i comp = false → Component.value t comp = Component.value s comp) ∧
    (isWrite i = false → t.regs = s.regs) ∧ (isWrite i = true → t.rdata = 0x0000#16) ∧
    t.cfg = s.cfg ∧ t.port = s.port

/-- The access matrix, reads (`10_state.md` section 6, an inference the spec marks as its own): in two states of the same
configuration that agree on the components marked `r`, a command gives the same response and leaves the same values in the
components marked `w`. -/
def Obligations.OnlyMarkedComponentsAreRead : Prop :=
  ∀ (i : Instr) (s u : State), s.cfg = u.cfg →
    (∀ comp, reads i comp = true → Component.value s comp = Component.value u comp) → ∃ t x,
    exec i s = .next t ∧ exec i u = .next x ∧ t.rdata = x.rdata ∧
    ∀ comp, writes i comp = true → Component.value t comp = Component.value x comp

/-- Side effects and idempotency (`20_memory.md` section 3; in part an inference the spec marks as its own): a read command
changes nothing but the response; a write command issued twice leaves the state it left once. -/
def Obligations.ReadsArePureAndWritesIdempotent : Prop :=
  ∀ (i : Instr) (s : State),
    (isWrite i = false → ∃ v, exec i s = .next { s with rdata := v }) ∧
    (isWrite i = true → ∃ t, exec i s = .next t ∧ exec i t = .next t)

/-! ## Observation and instances -/

/-- The snapshot's fields (`44_snapshot.md` section "R86", decision D12, D16): each field of the 96 bits is its component, `h`
and `l` as `0x00` when they do not exist. -/
def Obligations.SnapshotShowsEveryComponent : Prop :=
  ∀ s : State,
    (snapshot s).extractLsb' 88 8 = s.regs.a ∧ (snapshot s).extractLsb' 80 8 = s.regs.f ∧
    (snapshot s).extractLsb' 72 8 = s.regs.b ∧ (snapshot s).extractLsb' 64 8 = s.regs.c ∧
    (snapshot s).extractLsb' 56 8 = s.regs.d ∧ (snapshot s).extractLsb' 48 8 = s.regs.e ∧
    (snapshot s).extractLsb' 40 8 = (if s.cfg.hasHL = true then s.regs.h else 0x00#8) ∧
    (snapshot s).extractLsb' 32 8 = (if s.cfg.hasHL = true then s.regs.l else 0x00#8) ∧
    (snapshot s).extractLsb' 16 16 = s.regs.sp ∧ (snapshot s).extractLsb' 0 16 = s.regs.pc

/-- The snapshot agrees with the read commands, and shows everything: two states that meet the invariant in one configuration
have equal registers exactly when their snapshots are equal (`44_snapshot.md`, an inference the spec marks as its own). -/
def Obligations.SnapshotAgreesWithTheReadCommands : Prop :=
  (∀ (s : State) (p : Pair), ∃ t, exec (.rdp p) s = .next t ∧
    (snapshot s).extractLsb' (80 - 16 * (pairSelector p).toNat) 16 = t.rdata) ∧
  (∀ (s : State) (r : Reg8), ∃ t, exec (.rd8 r) s = .next t ∧
    (snapshot s).extractLsb' (88 - 8 * (reg8Selector r).toNat) 8 = splitLow t.rdata) ∧
  (∀ (s : State) (w : Reg16), ∃ t, exec (.rdw w) s = .next t ∧
    (snapshot s).extractLsb' (16 - 16 * (reg16Selector w).toNat) 16 = t.rdata) ∧
  (∀ (s : State) (k : Flag), ∃ t, exec (.getf k) s = .next t ∧
    (snapshot s).getLsbD (80 + flagBit k) = t.rdata.getLsbD 0) ∧
  (∀ s u : State, s.Inv → u.Inv → s.cfg.hasHL = u.cfg.hasHL → (snapshot s = snapshot u ↔ s.regs = u.regs))

/-- Instances share no state (`60_exceptions.md` section 5): a step of one instance is that instance's own step and leaves
every other instance as it was. -/
def Obligations.InstancesShareNothing : Prop :=
  ∀ (sys : System) (n : Nat) (s : State), sys[n]? = some s → ∃ sys' t,
    stepInstance sys n = some (.next sys') ∧ step s = .next t ∧ sys'[n]? = some t ∧
    ∀ m, m ≠ n → sys'[m]? = sys[m]?
end

