-- ==== Sys2Proof/Laws/State.lean ====
section
/-! SUPPORT. What each update of State leaves in each field: one lemma a field and update. -/

namespace Sys2Proof.Laws

open Sys2Proof.Machine

variable (s : State) (v : Word) (x : Byte) (r : Reg8) (p : Pair) (w : Reg16)

/-! `respond`, `respondZero` -/

@[simp] theorem respond_regs : (respond s v).regs = s.regs := rfl
@[simp] theorem respond_cfg : (respond s v).cfg = s.cfg := rfl
@[simp] theorem respond_rdata : (respond s v).rdata = v := rfl
@[simp] theorem respond_port : (respond s v).port = s.port := rfl
@[simp] theorem respondZero_regs : (respondZero s).regs = s.regs := rfl
@[simp] theorem respondZero_cfg : (respondZero s).cfg = s.cfg := rfl
@[simp] theorem respondZero_rdata : (respondZero s).rdata = 0x0000#16 := rfl
@[simp] theorem respondZero_port : (respondZero s).port = s.port := rfl

/-! `putFlags` -/

@[simp] theorem putFlags_f : (putFlags s x).regs.f = x := rfl
@[simp] theorem putFlags_sp : (putFlags s x).regs.sp = s.regs.sp := rfl
@[simp] theorem putFlags_pc : (putFlags s x).regs.pc = s.regs.pc := rfl
@[simp] theorem putFlags_h : (putFlags s x).regs.h = s.regs.h := rfl
@[simp] theorem putFlags_l : (putFlags s x).regs.l = s.regs.l := rfl
@[simp] theorem putFlags_cfg : (putFlags s x).cfg = s.cfg := rfl
@[simp] theorem putFlags_rdata : (putFlags s x).rdata = s.rdata := rfl
@[simp] theorem putFlags_port : (putFlags s x).port = s.port := rfl

/-! `writeReg8`, `writePair` -/

@[simp] theorem writeReg8_cfg : (writeReg8 s r x).cfg = s.cfg := by
  cases r <;> simp only [writeReg8] <;> first | rfl | (split <;> rfl)

@[simp] theorem writeReg8_rdata : (writeReg8 s r x).rdata = s.rdata := by
  cases r <;> simp only [writeReg8] <;> first | rfl | (split <;> rfl)

@[simp] theorem writeReg8_port : (writeReg8 s r x).port = s.port := by
  cases r <;> simp only [writeReg8] <;> first | rfl | (split <;> rfl)

@[simp] theorem writeReg8_sp : (writeReg8 s r x).regs.sp = s.regs.sp := by
  cases r <;> simp only [writeReg8] <;> first | rfl | (split <;> rfl)

@[simp] theorem writeReg8_pc : (writeReg8 s r x).regs.pc = s.regs.pc := by
  cases r <;> simp only [writeReg8] <;> first | rfl | (split <;> rfl)

@[simp] theorem writePair_cfg : (writePair s p v).cfg = s.cfg := by simp [writePair]
@[simp] theorem writePair_rdata : (writePair s p v).rdata = s.rdata := by simp [writePair]
@[simp] theorem writePair_port : (writePair s p v).port = s.port := by simp [writePair]
@[simp] theorem writePair_sp : (writePair s p v).regs.sp = s.regs.sp := by simp [writePair]
@[simp] theorem writePair_pc : (writePair s p v).regs.pc = s.regs.pc := by simp [writePair]

/-! `writeReg16` -/

@[simp] theorem writeReg16_f : (writeReg16 s w v).regs.f = s.regs.f := by cases w <;> rfl
@[simp] theorem writeReg16_h : (writeReg16 s w v).regs.h = s.regs.h := by cases w <;> rfl
@[simp] theorem writeReg16_l : (writeReg16 s w v).regs.l = s.regs.l := by cases w <;> rfl
@[simp] theorem writeReg16_cfg : (writeReg16 s w v).cfg = s.cfg := by cases w <;> rfl
@[simp] theorem writeReg16_rdata : (writeReg16 s w v).rdata = s.rdata := by cases w <;> rfl
@[simp] theorem writeReg16_port : (writeReg16 s w v).port = s.port := by cases w <;> rfl

/-! `applyReset`, `consumePins`, reads after `respond` -/

@[simp] theorem applyReset_regs : (applyReset s).regs = resetRegisters s.cfg.hasHL s.cfg.resetState := rfl
@[simp] theorem applyReset_cfg : (applyReset s).cfg = s.cfg := rfl
@[simp] theorem applyReset_rdata : (applyReset s).rdata = 0x0000#16 := rfl
@[simp] theorem applyReset_port : (applyReset s).port = s.port := rfl
@[simp] theorem consumePins_regs : (consumePins s).regs = s.regs := rfl
@[simp] theorem consumePins_cfg : (consumePins s).cfg = s.cfg := rfl
@[simp] theorem consumePins_rdata : (consumePins s).rdata = s.rdata := rfl
@[simp] theorem consumePins_port : (consumePins s).port = s.port.tail := rfl
@[simp] theorem readReg8_respond : readReg8 (respond s v) r = readReg8 s r := by cases r <;> rfl
@[simp] theorem readReg8_respondZero : readReg8 (respondZero s) r = readReg8 s r := by cases r <;> rfl
@[simp] theorem readReg16_respond : readReg16 (respond s v) w = readReg16 s w := by cases w <;> rfl
@[simp] theorem readReg16_respondZero : readReg16 (respondZero s) w = readReg16 s w := by cases w <;> rfl

end Sys2Proof.Laws
end

