-- ==== Sys2Proof/Laws/Ops.lean ====
section
/-! SUPPORT. For each shared operation, what it can do, said once: reads after writes of registers, of pairs, of flags, and
the slices they are made of. -/

namespace Sys2Proof.Laws

open Sys2Proof.Machine

/-! ## Slices (`10_state.md` R20) -/

theorem splitHigh_pairValue (u v : Byte) : splitHigh (pairValue u v) = u := by
  unfold splitHigh pairValue
  ext i hi
  simp only [BitVec.getElem_extractLsb', BitVec.getLsbD_append]
  split <;> simp_all

theorem splitLow_pairValue (u v : Byte) : splitLow (pairValue u v) = v := by
  unfold splitLow pairValue
  ext i hi
  simp only [BitVec.getElem_extractLsb', BitVec.getLsbD_append]
  split <;> simp_all

theorem pairValue_split (v : Word) : pairValue (splitHigh v) (splitLow v) = v := by
  unfold pairValue splitHigh splitLow
  ext i hi
  simp only [BitVec.getElem_append, BitVec.getElem_extractLsb']
  split
  · simp [BitVec.getLsbD_eq_getElem, hi]
  · rename_i h8
    have h : 8 + (i - 8) = i := by omega
    simp only [h, BitVec.getLsbD_eq_getElem hi]

theorem splitLow_zext16 (v : Byte) : splitLow (zext16 v) = v := by
  unfold splitLow zext16
  ext i hi
  simp only [BitVec.getElem_extractLsb', BitVec.getLsbD_setWidth]
  have : i < 16 := by omega
  simp [BitVec.getLsbD_eq_getElem, hi, this]

/-! ## Flags (`10_state.md` R18, `40_flag_ops.md` R63) -/

theorem getFlag_setFlag (f : Byte) (k k' : Flag) (v : Bool) :
    getFlag (setFlag f k v) k' = if k' = k then v else getFlag f k' := by
  revert f
  cases k <;> cases k' <;> cases v <;> decide

theorem setFlag_lowNibble (f : Byte) (k : Flag) (v : Bool) (hf : f &&& 0x0F#8 = 0#8) :
    setFlag f k v &&& 0x0F#8 = 0#8 := by
  revert f
  cases k <;> cases v <;> decide

theorem setFlag_setFlag_same (f : Byte) (k : Flag) (v v' : Bool) : setFlag (setFlag f k v) k v' = setFlag f k v' := by
  revert f
  cases k <;> cases v <;> cases v' <;> decide

theorem setFlag_comm (f : Byte) (k k' : Flag) (v v' : Bool) (hk : k ≠ k') :
    setFlag (setFlag f k v) k' v' = setFlag (setFlag f k' v') k v := by
  revert f
  cases k <;> cases k' <;> first | exact absurd rfl hk | (cases v <;> cases v' <;> decide)

theorem maskF_lowNibble (v : Byte) : maskF v &&& 0x0F#8 = 0#8 := by
  revert v
  decide

theorem maskF_of_lowNibble (v : Byte) (hv : v &&& 0x0F#8 = 0#8) : maskF v = v := by
  revert v
  decide

theorem getFlag_maskF (v : Byte) (k : Flag) : getFlag (maskF v) k = v.getLsbD (flagBit k) := by
  revert v
  cases k <;> decide

/-- A byte with a zero low nibble is the pack of its four flags (`10_state.md` R19). -/
theorem packFlags_getFlag (f : Byte) (hf : f &&& 0x0F#8 = 0#8) :
    packFlags { z := getFlag f .zero, n := getFlag f .addition, h := getFlag f .halfCarry, c := getFlag f .carry } = f := by
  revert f
  decide

/-! ## 8-bit registers (`41_reg8_ops.md` R70, R71) -/

/-- What `WR8 r` of `v` leaves in a register that exists. -/
def storedIn (r : Reg8) (v : Byte) : Byte := if r = .f then maskF v else v

theorem readReg8_writeReg8_same (s : State) (r : Reg8) (v : Byte) (hr : r.present s.cfg.hasHL = true) :
    readReg8 (writeReg8 s r v) r = storedIn r v := by
  cases r <;> simp_all [Reg8.present, writeReg8, readReg8, storedIn]

theorem readReg8_writeReg8_other (s : State) (r r' : Reg8) (v : Byte) (hr : r' ≠ r) :
    readReg8 (writeReg8 s r v) r' = readReg8 s r' := by
  cases hHL : s.cfg.hasHL <;> cases r <;> cases r' <;> simp_all [writeReg8, readReg8, putFlags]

theorem writeReg8_absent (s : State) (r : Reg8) (v : Byte) (hr : r.present s.cfg.hasHL = false) :
    writeReg8 s r v = s := by
  cases r <;> simp_all [Reg8.present, writeReg8]

theorem readReg8_absent (s : State) (r : Reg8) (hr : r.present s.cfg.hasHL = false) : readReg8 s r = 0#8 := by
  cases r <;> simp_all [Reg8.present, readReg8]

theorem readReg16_writeReg8 (s : State) (r : Reg8) (v : Byte) (w : Reg16) :
    readReg16 (writeReg8 s r v) w = readReg16 s w := by
  cases w <;> simp [readReg16]

theorem writeReg8_f_of_ne (s : State) (r : Reg8) (v : Byte) (hr : r ≠ .f) : (writeReg8 s r v).regs.f = s.regs.f := by
  cases r <;> simp_all [writeReg8] <;> split <;> rfl

theorem writeReg8_writeReg8_same (s : State) (r : Reg8) (v v' : Byte) :
    writeReg8 (writeReg8 s r v) r v' = writeReg8 s r v' := by
  cases r <;> simp [writeReg8, putFlags] <;> split <;> simp_all

theorem writeReg8_comm (s : State) (r r' : Reg8) (v v' : Byte) (hr : r ≠ r') :
    writeReg8 (writeReg8 s r v) r' v' = writeReg8 (writeReg8 s r' v') r v := by
  cases hHL : s.cfg.hasHL <;> cases r <;> cases r' <;> simp_all [writeReg8, putFlags]

/-! ## Pairs and 16-bit registers (`42_pair_ops.md` R77, `43_word_ops.md` R83) -/

theorem Pair.hi_ne_lo (p q : Pair) : p.hi ≠ q.lo := by
  cases p <;> cases q <;> decide

theorem readReg16_writePair (s : State) (p : Pair) (v : Word) (w : Reg16) :
    readReg16 (writePair s p v) w = readReg16 s w := by
  simp [writePair, readReg16_writeReg8]

theorem readReg8_writeReg16 (s : State) (w : Reg16) (v : Word) (r : Reg8) :
    readReg8 (writeReg16 s w v) r = readReg8 s r := by
  cases w <;> cases r <;> rfl

theorem readReg16_writeReg16 (s : State) (w w' : Reg16) (v : Word) :
    readReg16 (writeReg16 s w v) w' = if w' = w then v else readReg16 s w' := by
  cases w <;> cases w' <;> rfl

end Sys2Proof.Laws
end

