-- ==== Sys2Proof/Laws/PerInstr.lean ====
section
/-! SUPPORT. Per-instruction facts about the syntax. Family `WriteBit`: "Bit 4 of the command word is 0 for every read command
and 1 for every write command" (`30_encoding.md` R49), bit 7 is 0 in every command's word, and a command that takes no
operand from `wdata` is encoded with none. -/

namespace Sys2Proof.Laws.WriteBit

open Sys2Proof.Machine

abbrev Statement (i : Instr) : Prop :=
  (encodeCmd i).getLsbD 4 = isWrite i ∧ (encodeCmd i).getLsbD 7 = false ∧
    (isWrite i = false → encodeWdata i = 0x0000#16)

theorem getf (k : Flag) : Statement (.getf k) := by cases k <;> decide

theorem setf (k : Flag) (v : Bool) : Statement (.setf k v) := by cases k <;> cases v <;> decide

theorem rd8 (r : Reg8) : Statement (.rd8 r) := by cases r <;> decide

theorem wr8 (r : Reg8) (v : Byte) : Statement (.wr8 r v) := by
  cases r <;> exact ⟨by simp only [encodeCmd, isWrite]; decide, by simp only [encodeCmd]; decide, fun h => by cases h⟩

theorem rdp (p : Pair) : Statement (.rdp p) := by cases p <;> decide

theorem wrp (p : Pair) (v : Word) : Statement (.wrp p v) := by
  cases p <;> exact ⟨by simp only [encodeCmd, isWrite]; decide, by simp only [encodeCmd]; decide, fun h => by cases h⟩

theorem rdw (w : Reg16) : Statement (.rdw w) := by cases w <;> decide

theorem wrw (w : Reg16) (v : Word) : Statement (.wrw w v) := by
  cases w <;> exact ⟨by simp only [encodeCmd, isWrite]; decide, by simp only [encodeCmd]; decide, fun h => by cases h⟩

end Sys2Proof.Laws.WriteBit
end

