-- ==== Sys2Proof/Laws/Step.lean ====
section
/-! SUPPORT. What one step can do, said once; and what each shared operation does to the invariant. -/

namespace Sys2Proof.Laws

open Sys2Proof.Machine

/-- A step is a reset, an idle cycle, a reserved word, or a decoded command. -/
theorem edge_cases (s : State) (p : PortCycle) :
    (p.rst = true ∧ edge s p = .next (applyReset s)) ∨
    (p.rst = false ∧ p.cmdValid = false ∧ edge s p = .next (idleCycle s)) ∨
    (p.rst = false ∧ p.cmdValid = true ∧ (∃ why, decode s.cfg.hasHL p.command = .reserved why) ∧
      edge s p = .next (runReserved s)) ∨
    (p.rst = false ∧ p.cmdValid = true ∧ ∃ i, decode s.cfg.hasHL p.command = .command i ∧ edge s p = exec i s) := by
  unfold edge stepCommand
  cases hr : p.rst
  · cases hv : p.cmdValid
    · exact .inr (.inl ⟨rfl, rfl, by simp⟩)
    · cases hd : decode s.cfg.hasHL p.command with
      | command i => exact .inr (.inr (.inr ⟨rfl, rfl, i, rfl, by simp⟩))
      | reserved why => exact .inr (.inr (.inl ⟨rfl, rfl, ⟨why, rfl⟩, by simp⟩))
  · exact .inl ⟨rfl, by simp⟩

theorem step_cons (s : State) (p : PortCycle) (rest : List PortCycle) (hp : s.port = p :: rest) :
    step s = edge { s with port := rest } p := by
  simp [step, consumePins, currentPins, hp]

theorem step_nil (s : State) (hp : s.port = []) : step s = .next (idleCycle s) := by
  cases s
  simp_all [step, consumePins, currentPins, edge, idlePins, idleCycle, respondZero, respond]

theorem writeReg8_keeps_inv (s : State) (r : Reg8) (v : Byte) (h : s.Inv) : (writeReg8 s r v).Inv := by
  obtain ⟨hf, ha⟩ := h
  cases r <;> simp_all [State.Inv, RegisterFile.lowNibbleClear, RegisterFile.absentTied, writeReg8, maskF_lowNibble]
  all_goals (split <;> simp_all)

theorem writePair_keeps_inv (s : State) (p : Pair) (v : Word) (h : s.Inv) : (writePair s p v).Inv :=
  writeReg8_keeps_inv _ _ _ (writeReg8_keeps_inv _ _ _ h)

theorem writeReg16_keeps_inv (s : State) (w : Reg16) (v : Word) (h : s.Inv) : (writeReg16 s w v).Inv := by
  cases w <;> exact h

theorem respond_keeps_inv (s : State) (v : Word) (h : s.Inv) : (respond s v).Inv := h

theorem putFlags_setFlag_keeps_inv (s : State) (k : Flag) (v : Bool) (h : s.Inv) :
    (putFlags s (setFlag s.regs.f k v)).Inv :=
  ⟨setFlag_lowNibble _ _ _ h.1, h.2⟩

theorem applyReset_meets_inv (s : State) : (applyReset s).Inv := by
  refine ⟨maskF_lowNibble _, fun h => ?_⟩
  simp_all [resetRegisters]

/-! ## The most recent write (`20_memory.md` R42) -/

theorem lastStored_cons {α : Type} (hasHL : Bool) (stored : Instr → Option α) (init : α) (c : Command)
    (cs : List Command) : lastStored hasHL stored init (c :: cs) =
      lastStored hasHL stored
        (match decode hasHL c with
          | .command i => (stored i).getD init
          | .reserved _ => init) cs := rfl

theorem lastByte_of_ne_f (s : State) (cs : List Command) (r : Reg8) (hr : r ≠ .f) :
    lastByte s cs r = lastStored s.cfg.hasHL (storedByte r) (readReg8 s r) cs := if_neg hr

end Sys2Proof.Laws
end

