-- ==== Sys2Proof/Tests/Slice0.lean ====
section
/-! SUPPORT. Tests on fixed values taken from the spec (`95_test_vectors.md` and the examples of the instruction rules), the
smoke tests of WellFormed, and for each obligation with hypotheses a witness that meets them. -/

namespace Sys2Proof.Tests

open Sys2Proof.Machine

/-- The next state, if there is one. -/
def after (o : Host.Outcome State Fault Refusal) : Option State :=
  match o with
  | .next t => some t
  | .fault _ => none
  | .refused _ => none

/-- A register file in the order `a f b c d e h l sp pc` of `95_test_vectors.md`. -/
def regs (a f b c d e h l : Byte) (sp pc : Word) : RegisterFile :=
  { a := a, f := f, b := b, c := c, d := d, e := e, h := h, l := l, sp := sp, pc := pc }

/-- A state of the baseline configuration. -/
def st (x : RegisterFile) : State := { regs := x, cfg := Config.baseline, rdata := 0#16, port := [] }

/-- A state of the configuration without `h` and `l`. -/
def stNoHL (x : RegisterFile) : State :=
  { regs := x, cfg := { hasHL := false, resetState := Config.zeroImage }, rdata := 0#16, port := [] }

/-- The start state `12 B0 34 56 78 9A BC DE FFFE 0100` of `95_test_vectors.md` section 2. -/
def full : RegisterFile := regs 0x12#8 0xB0#8 0x34#8 0x56#8 0x78#8 0x9A#8 0xBC#8 0xDE#8 0xFFFE#16 0x0100#16

/-- Registers and response after one step with a wire word `wdata:cmd` of 24 bits on the port. -/
def wire (s : State) (w : Nat) : Option (RegisterFile × Word) :=
  (after (step (s.withFetchWord 24 w))).map fun t => (t.regs, t.rdata)

/-! ## WellFormed: every check refuses an ill-formed term -/

theorem test_rd8_h_ill_formed : (Instr.rd8 .h).wellFormed false = false := by decide
theorem test_rd8_l_ill_formed : (Instr.rd8 .l).wellFormed false = false := by decide
theorem test_wr8_h_ill_formed : (Instr.wr8 .h 0x01#8).wellFormed false = false := by decide
theorem test_wr8_l_ill_formed : (Instr.wr8 .l 0x01#8).wellFormed false = false := by decide
theorem test_rdp_hl_ill_formed : (Instr.rdp .hl).wellFormed false = false := by decide
theorem test_wrp_hl_ill_formed : (Instr.wrp .hl 0x0001#16).wellFormed false = false := by decide

/-! ## Decode: words written out bit by bit from `30_encoding.md` R48, R49, R51 to R54 -/

theorem test_decode_getf : decodeTableWord 8 0b0000_0001 = some (.getf .addition) := by decide
theorem test_decode_setf : decodeTableWord 8 0b0001_0110 = some (.setf .halfCarry true) := by decide
theorem test_decode_rd8 : decodeTableWord 8 0b0010_0111 = some (.rd8 .l) := by decide
theorem test_decode_wr8 : decodeTableWord 24 0x00B7_31 = some (.wr8 .f 0xB7#8) := by decide
theorem test_decode_rdp : decodeTableWord 8 0b0100_0010 = some (.rdp .de) := by decide
theorem test_decode_wrp : decodeTableWord 24 0xBEEF_52 = some (.wrp .de 0xBEEF#16) := by decide
theorem test_decode_rdw : decodeTableWord 8 0b0110_0001 = some (.rdw .pc) := by decide
theorem test_decode_wrw : decodeTableWord 24 0xFFFE_70 = some (.wrw .sp 0xFFFE#16) := by decide

/-- The number of command words with high nibble `op` that decode to a command. -/
def definedWords (hasHL : Bool) (op : Nat) : Nat :=
  (List.range 16).countP fun arg =>
    match decode hasHL (commandOfBits 8 (16 * op + arg)) with
    | .command _ => true
    | .reserved _ => false

/-- 95 2.1: "40 defined words with `HAS_HL = true`, 34 with `false`". -/
theorem test_defined_word_counts : ((List.range 16).map (definedWords true)).sum = 40 ∧
    ((List.range 16).map (definedWords false)).sum = 34 := by decide

/-! ## Vectors of `95_test_vectors.md`, one step each -/

/-- 95 2.2, row `0xA0`, column `SETF N,1`. -/
theorem test_setf_sets_addition : wire (st (regs 0 0xA0#8 0 0 0 0 0 0 0 0)) 0x15 =
    some (regs 0 0xE0#8 0 0 0 0 0 0 0 0, 0x0000#16) := by decide

/-- 95 2.2, row `0x50`, column `SETF C,0`. -/
theorem test_setf_clears_carry : wire (st (regs 0 0x50#8 0 0 0 0 0 0 0 0)) 0x13 =
    some (regs 0 0x40#8 0 0 0 0 0 0 0 0, 0x0000#16) := by decide

/-- 95 2.3, `f = 0xB0`: `GETF N -> 0x0000`, `GETF H -> 0x0001`. -/
theorem test_getf : wire (st full) 0x01 = some (full, 0x0000#16) ∧ wire (st full) 0x02 = some (full, 0x0001#16) := by decide

/-- 95 2.4: `RD8 l` is zero-extended, and `wdata` is ignored. -/
theorem test_rd8_l : wire (st full) 0xFFFF27 = some (full, 0x00DE#16) := by decide

/-- 95 2.4: `WR8 f, 0xB7` masks the low nibble. -/
theorem test_wr8_f_masks : wire State.reset 0x00B731 = some (regs 0 0xB0#8 0 0 0 0 0 0 0 0, 0x0000#16) := by decide

/-- 95 2.4: `WR8 b` ignores `wdata[15:8]`. -/
theorem test_wr8_b_ignores_high_byte : wire State.reset 0xFFAB32 =
    some (regs 0 0 0xAB#8 0 0 0 0 0 0 0, 0x0000#16) := by decide

/-- 95 2.5: `RDP hl`. -/
theorem test_rdp_hl : wire (st full) 0x43 = some (full, 0xBCDE#16) := by decide

/-- 95 2.5: `WRP af, 0x12FF`. -/
theorem test_wrp_af_masks : wire State.reset 0x12FF50 = some (regs 0x12#8 0xF0#8 0 0 0 0 0 0 0 0, 0x0000#16) := by decide

/-- 95 2.5: with `HAS_HL = false`, `0x53/0x014D` is a reserved word. -/
theorem test_wrp_hl_reserved_without_hl : wire (stNoHL (regs 0x12#8 0xB0#8 0 0 0 0 0 0 0 0)) 0x014D53 =
    some (regs 0x12#8 0xB0#8 0 0 0 0 0 0 0 0, 0x0000#16) := by decide

/-- 95 2.6: `RDW pc`, which advances nothing. -/
theorem test_rdw_pc : wire (st full) 0x61 = some (full, 0x0100#16) := by decide

/-- 95 2.6: `WRW sp, 0x0001`: no alignment rule. -/
theorem test_wrw_sp : wire State.reset 0x000170 = some (regs 0 0 0 0 0 0 0 0 0x0001#16 0, 0x0000#16) := by decide

/-- 95 2.7: the snapshot, with and without `h` and `l`. -/
theorem test_snapshot : snapshot (st full) = 0x12B03456789ABCDEFFFE0100#96 ∧
    snapshot (stNoHL { full with h := 0, l := 0 }) = 0x12B03456789A0000FFFE0100#96 := by decide

/-- 95 2.8: reset together with `WRP bc, 0xFFFF`: reset wins. -/
theorem test_reset_wins : after (step { st full with port := [{ issue { cmd := 0x51, wdata := 0xFFFF } with rst := true }] }) =
    some State.reset := by decide

/-- 95 2.8: a non-conforming `RESET_STATE.f = 0xBF` leaves `f = 0xB0`. -/
theorem test_reset_masks_f : (State.afterReset { hasHL := true, resetState := { Config.zeroImage with f := 0xBF#8 } }).regs.f =
    0xB0#8 := by decide

/-- 95 2.8: the reserved words `0x80/0xFFFF` and `0x58/0x1111` leave everything. -/
theorem test_reserved_words : wire (st full) 0xFFFF80 = some (full, 0x0000#16) ∧
    wire (st full) 0x111158 = some (full, 0x0000#16) := by decide

/-- 95 2.8: an idle cycle with `cmd = 0x51`, `wdata = 0xFFFF`. -/
theorem test_idle : after (step { st full with port := [⟨false, false, 0x51, 0xFFFF⟩] }) = some (st full) := by decide

/-- `30_encoding.md` R60's examples of the wire form and of the syntax. -/
theorem test_text : wireForm (encode (.wrp .bc 0x1234#16)) = "0x51/0x1234" ∧
    wireForm (encode (.wr8 .b 0xAB#8)) = "0x32/0x00AB" ∧
    assembleText "WRP bc, 0x1234" = some (.wrp .bc 0x1234#16) ∧ assembleText "SETF Z, 1" = some (.setf .zero true) ∧
    assembleText "CLRF Carry" = some (.setf .carry false) ∧ assembleText "WRP a, 0x1234" = none := by decide

/-! ## Witnesses: each obligation's hypotheses can be met -/

theorem witness_DecodeInvertsEncode : (Instr.wr8 .l 0xFF#8).wellFormed true = true ∧
    (Instr.wrp .de 0xFFFF#16).wellFormed false = true := by decide

theorem witness_EncodeInvertsDecode : decode true ⟨0x36, 0xFFFF⟩ = .command (.wr8 .h 0xFF) ∧
    decode false ⟨0x71, 0xFFFF⟩ = .command (.wrw .pc 0xFFFF) := by decide

theorem witness_DecodeFollowsTheOpcodeTable : (∃ row ∈ opcodeTable, row.matchesWord 0x43 = true) ∧
    decode false ⟨0x43, 0⟩ = .reserved .absentRegister ∧ decode true ⟨0x43, 0⟩ = .command (.rdp .hl) := by decide

theorem witness_ReservedWordsAreExactlyThese : decode true ⟨0x0F, 0⟩ = .reserved .mustBeZero ∧
    decode true ⟨0x03, 0⟩ = .command (.getf .carry) ∧ decode true ⟨0x80, 0⟩ = .reserved .unassignedOp ∧
    decode false ⟨0x26, 0⟩ = .reserved .absentRegister := by decide

theorem witness_UnusedWdataBitsAreIgnored : (0x20#8).getLsbD 4 = false ∧ (0x17#8).extractLsb' 4 4 = 1#4 ∧
    (0x32#8).extractLsb' 4 4 = 3#4 ∧ (0xFFAB#16).extractLsb' 0 8 = (0x00AB#16).extractLsb' 0 8 := by decide

theorem witness_ResetLoadsTheConfiguredImage :
    { st full with port := [resetPins] }.port = resetPins :: [] ∧ resetPins.rst = true := by decide

theorem witness_StepRunsTheDecodedInstruction :
    (State.reset.withFetchWord 24 0x123451).port = issue ⟨0x51, 0x1234⟩ :: [] ∧ (issue ⟨0x51, 0x1234⟩).rst = false ∧
    (issue ⟨0x51, 0x1234⟩).cmdValid = true ∧ decode true ⟨0x51, 0x1234⟩ = .command (.wrp .bc 0x1234) := by decide

theorem witness_ContractedCyclesRunInstructions : (issue ⟨0x51, 0x1234⟩).honoursContract true = true ∧
    (issue ⟨0x53, 0x1234⟩).honoursContract false = false := by decide

theorem witness_ReservedWordDoesNothing :
    (State.reset.withFetchWord 24 0xFFFF80).port = issue ⟨0x80, 0xFFFF⟩ :: [] ∧ (issue ⟨0x80, 0xFFFF⟩).rst = false ∧
    (issue ⟨0x80, 0xFFFF⟩).cmdValid = true ∧ decode true ⟨0x80, 0xFFFF⟩ = .reserved .unassignedOp := by decide

theorem witness_IdleCycleHoldsTheState : { st full with port := [idlePins] }.port = idlePins :: [] ∧
    idlePins.rst = false ∧ idlePins.cmdValid = false ∧ State.reset.port = [] := by decide

theorem witness_EveryStepKeepsTheInvariant : (st full).Inv ∧ (stNoHL { full with h := 0, l := 0 }).Inv ∧
    after (step ((st full).withFetchWord 24 0xFFFF50)) = some (st { full with a := 0xFF, f := 0xF0 }) := by decide

theorem witness_LowNibbleStaysClearAfterAnyCommands : full.lowNibbleClear := by decide

theorem witness_EveryInvariantStateIsReachable : full.lowNibbleClear ∧ full.absentTied true ∧
    { full with h := 0, l := 0 }.absentTied false := by decide

theorem witness_RunIsAFunctionOfItsSequence :
    (st full).regs = { st full with rdata := 0x1234#16, port := [resetPins] }.regs ∧
    (st full).cfg = { st full with rdata := 0x1234#16, port := [resetPins] }.cfg := by decide

theorem witness_PinsRealiseTheAbstractSteps : (pinRun 1 { st full with port := [idlePins] }).2 = [(idlePins, 0x0000#16)] ∧
    idlePins.event = none ∧ resetPins.event = some .reset := by decide

theorem witness_StepLeavesTheCyclesResponse :
    ((st full).withFetchWord 8 0x43).port = issue ⟨0x43, 0⟩ :: [] ∧
    after (step ((st full).withFetchWord 8 0x43)) = some { st full with rdata := 0xBCDE#16 } := by decide

theorem witness_ReadsSeeTheMostRecentWrite : Reg8.l.present true = true ∧ Reg8.e.present false = true ∧
    Reg8.f.present false = true ∧ Pair.af.present false = true ∧ Pair.hl.present true = true ∧ full.lowNibbleClear ∧
    lastByte (st full) [⟨0x51, 0x1234⟩, ⟨0x33, 0x00AB⟩, ⟨0x41, 0⟩] .c = 0xAB#8 ∧
    lastByte (st full) [⟨0x50, 0x12FF⟩, ⟨0x12, 0⟩] .f = 0xD0#8 := by decide

theorem witness_FlagMapIsTheDocuments : State.reset.regs.f = 0x00#8 ∧ flagBit .carry = 4 ∧ flagBit .zero = 7 := by decide

theorem witness_PackAndUnpackAreInverse : full.lowNibbleClear ∧ 0xB0#8 &&& 0x0F#8 = 0#8 := by decide

theorem witness_SetfSetsExactlyTheNamedFlag : getFlag (st full).regs.f .zero = true ∧ full.lowNibbleClear ∧
    State.reset.regs.f = 0x00#8 ∧ (st { full with f := 0xF0#8 }).regs.f = 0xF0#8 ∧
    ∀ k v, Instr.wr8 .f 0x10#8 ≠ .setf k v := ⟨by decide, by decide, by decide, by decide, by intro k v h; cases h⟩

theorem witness_SettingOneFlagLeavesTheRest : Flag.zero ≠ .carry ∧ Reg8.a ≠ .f := by decide

theorem witness_SetfComposesLikeIndependentFlags : Flag.zero ≠ .addition ∧ full.lowNibbleClear ∧
    [Flag.carry, Flag.zero, Flag.halfCarry, Flag.addition].Perm [Flag.zero, Flag.addition, Flag.halfCarry, Flag.carry] := by
  decide

theorem witness_FlagsHaveNoOtherWritersOrReaders :
    after (edge (st full) (issue ⟨0x10, 0⟩)) = some (st { full with f := 0x30#8 }) ∧
    getFlag 0x30#8 .zero ≠ getFlag (st full).regs.f .zero ∧
    Instr.getf .carry ≠ .getf .zero ∧ Instr.getf .carry ≠ .rd8 .f ∧ Instr.getf .carry ≠ .rdp .af := by decide

theorem witness_Rd8ReturnsTheRegister : (st full).regs.lowNibbleClear := by decide

theorem witness_Rd8AfterWr8 : Reg8.f.present false = true ∧ Reg8.l.present true = true ∧ Reg8.l ≠ .f ∧
    0x10#8 &&& 0x0F#8 = 0#8 := by decide

theorem witness_Wr8LeavesTheRest : Reg8.b ≠ .c ∧ Reg8.b ≠ .f := by decide

theorem witness_FlagsAndTheByteOfFAreOneStorage : (st full).regs.lowNibbleClear := by decide

theorem witness_RdpReturnsHighThenLow : Pair.hl.present true = true ∧ Pair.de.present false = true ∧
    (st full).regs.lowNibbleClear ∧ (st { full with b := 0x12#8, c := 0x34#8 }).regs.b = 0x12#8 := by decide

theorem witness_WrpWritesBothHalves : (stNoHL full).cfg.hasHL = false := by decide

theorem witness_PairRoundTrip : Pair.hl ≠ .af ∧ Pair.hl.present true = true ∧ full.lowNibbleClear := by decide

theorem witness_AfRoundTripIsMasked : 0xABC0#16 &&& 0x000F#16 = 0x0000#16 ∧ 0x12FF#16 &&& 0x000F#16 ≠ 0x0000#16 := by decide

theorem witness_PairSplitsIntoItsHalves : Pair.af.present false = true ∧ Pair.hl.present true = true ∧ Pair.hl ≠ .af := by
  decide

theorem witness_MixedWidthAccessesAgree : Pair.af.present false = true ∧ Pair.de.present false = true ∧
    Pair.hl.present true = true ∧ Pair.hl ≠ .af := by decide

theorem witness_WrpLeavesTheRest : Pair.bc ≠ .af ∧ Pair.de ≠ .hl := by decide

theorem witness_Reg16RoundTripAndIndependence : Reg16.sp ≠ .pc ∧ ∀ w v, Instr.wrp .bc 0x1234#16 ≠ .wrw w v :=
  ⟨by decide, by intro w v h; cases h⟩

theorem witness_NoCommandTransfersControl :
    after (stepCommand (st full) ⟨0x71, 0x0040⟩) = some (st { full with pc := 0x0040#16 }) ∧
    after (stepCommand (st full) ⟨0x61, 0x0000⟩) = some { st full with rdata := 0x0100#16 } := by decide

theorem witness_Reg16ChangesOnlyByWrwOrReset :
    after (edge (st full) (issue ⟨0x70, 0x0040⟩)) = some (st { full with sp := 0x0040#16 }) ∧
    readReg16 (st { full with sp := 0x0040#16 }) .sp ≠ readReg16 (st full) .sp := by decide

theorem witness_UnmarkedComponentsAreUnchanged : writes (.wrp .bc 0x1234#16) (.byte .d) = false ∧
    isWrite (.wrp .bc 0x1234#16) = true ∧ isWrite (.rdp .bc) = false := by decide

theorem witness_OnlyMarkedComponentsAreRead : (st full).cfg = (st { full with a := 0x00#8 }).cfg ∧
    (∀ r, reads (.rd8 .b) (.byte r) = true → Component.value (st full) (.byte r) =
      Component.value (st { full with a := 0x00#8 }) (.byte r)) ∧
    ∀ w, reads (.rd8 .b) (.word w) = false :=
  ⟨by decide, by intro r; cases r <;> decide, by intro w; rfl⟩

theorem witness_ReadsArePureAndWritesIdempotent : isWrite (.getf .zero) = false ∧ isWrite (.setf .zero true) = true := by
  decide

theorem witness_SnapshotAgreesWithTheReadCommands : (st full).Inv ∧ State.reset.Inv ∧
    (st full).cfg.hasHL = State.reset.cfg.hasHL := by decide

theorem witness_InstancesShareNothing : ([State.reset, st full] : System)[1]? = some (st full) := by decide

end Sys2Proof.Tests
end

section
/-! PROOFS. A run depends on its sequence, the registers and the parameters alone (`00_scope.md` R12): each read, write,
command and abstract step is compared in two states that agree on those two fields, then the run by induction. -/

namespace Sys2Proof.Proofs

open Sys2Proof.Machine Sys2Proof.Laws

/-- The two states differ at most in the response of the last step and in the pins to come, the model's own fields
(logs 2 and 3). -/
structure SameArch (s u : State) : Prop where
  regs : s.regs = u.regs
  cfg : s.cfg = u.cfg

/-! ## Reads and writes in two states that agree -/

section
variable {s u : State} (h : SameArch s u)
include h

theorem SameArch.readReg8_eq (r : Reg8) : readReg8 s r = readReg8 u r := by
  cases r <;> simp only [readReg8, h.regs, h.cfg]

theorem SameArch.readPair_eq (p : Pair) : readPair s p = readPair u p := by
  simp only [readPair, h.readReg8_eq]

theorem SameArch.readReg16_eq (w : Reg16) : readReg16 s w = readReg16 u w := by
  cases w <;> simp only [readReg16, h.regs]

theorem SameArch.respond (v v' : Word) : SameArch (respond s v) (respond u v') := ⟨h.regs, h.cfg⟩

theorem SameArch.putFlags (x : Byte) : SameArch (putFlags s x) (putFlags u x) where
  regs := by simp only [Machine.putFlags, h.regs]
  cfg := h.cfg

theorem SameArch.writeReg8 (r : Reg8) (x : Byte) : SameArch (writeReg8 s r x) (writeReg8 u r x) where
  regs := by
    cases r with
    | h | l => simp only [Machine.writeReg8, h.cfg]; split <;> simp only [h.regs]
    | f => exact (h.putFlags _).regs
    | a | b | c | d | e => simp only [Machine.writeReg8, h.regs]
  cfg := by simp only [writeReg8_cfg, h.cfg]

theorem SameArch.writePair (p : Pair) (v : Word) : SameArch (writePair s p v) (writePair u p v) :=
  (h.writeReg8 p.hi _).writeReg8 p.lo _

theorem SameArch.writeReg16 (w : Reg16) (v : Word) : SameArch (writeReg16 s w v) (writeReg16 u w v) where
  regs := by cases w <;> simp only [Machine.writeReg16, h.regs]
  cfg := by simp only [writeReg16_cfg, h.cfg]

theorem SameArch.applyReset : SameArch (applyReset s) (applyReset u) where
  regs := by simp only [applyReset_regs, h.cfg]
  cfg := h.cfg

end

/-! ## One step in two states that agree -/

/-- Both outcomes are next states that agree and give the same response. -/
def SameNext (o o' : Host.Outcome State Fault Refusal) : Prop :=
  ∃ t t', o = .next t ∧ o' = .next t' ∧ SameArch t t' ∧ t.rdata = t'.rdata

theorem SameArch.next_respond {s u : State} (h : SameArch s u) {v v' : Word} (hv : v = v') :
    SameNext (.next (Machine.respond s v)) (.next (Machine.respond u v')) :=
  ⟨_, _, rfl, rfl, h.respond v v', hv⟩

theorem SameArch.next_respondZero {s u : State} (h : SameArch s u) :
    SameNext (.next (respondZero s)) (.next (respondZero u)) :=
  h.next_respond rfl

theorem SameArch.exec {s u : State} (h : SameArch s u) (i : Instr) : SameNext (exec i s) (exec i u) := by
  cases i with
  | getf k => exact h.next_respond (by rw [h.readReg8_eq])
  | rd8 r => exact h.next_respond (by rw [h.readReg8_eq])
  | rdp p => exact h.next_respond (h.readPair_eq p)
  | rdw w => exact h.next_respond (h.readReg16_eq w)
  | setf k v =>
    simp only [Machine.exec, execSetf, h.readReg8_eq]
    exact (h.putFlags _).next_respondZero
  | wr8 r v => exact (h.writeReg8 r v).next_respondZero
  | wrp p v => exact (h.writePair p v).next_respondZero
  | wrw w v => exact (h.writeReg16 w v).next_respondZero

theorem SameArch.stepCommand {s u : State} (h : SameArch s u) (c : Command) :
    SameNext (stepCommand s c) (stepCommand u c) := by
  unfold Machine.stepCommand
  rw [h.cfg]
  cases decode u.cfg.hasHL c with
  | command i => exact h.exec i
  | reserved _ => exact h.next_respondZero

theorem SameArch.stepEvent {s u : State} (h : SameArch s u) (ev : Event) :
    SameNext (stepEvent s ev) (stepEvent u ev) := by
  cases ev with
  | reset => exact ⟨_, _, rfl, rfl, h.applyReset, rfl⟩
  | command c => exact h.stepCommand c

/-! ## Runs -/

theorem eventRun_cons_of_next {s t : State} {ev : Event} (ht : stepEvent s ev = .next t) (evs : List Event) :
    eventRun s (ev :: evs) = ((eventRun t evs).1, t.rdata :: (eventRun t evs).2) := by
  simp only [eventRun, ht]

/-- Runs of one sequence from two states that agree end in states that agree, with the same responses. -/
theorem SameArch.eventRun {s u : State} (h : SameArch s u) (evs : List Event) :
    SameArch (eventRun s evs).1 (eventRun u evs).1 ∧ (eventRun s evs).2 = (eventRun u evs).2 := by
  induction evs generalizing s u with
  | nil => exact ⟨h, rfl⟩
  | cons ev evs ih =>
    obtain ⟨t, t', ht, ht', hsame, hresp⟩ := h.stepEvent ev
    obtain ⟨hfinal, hrest⟩ := ih hsame
    rw [eventRun_cons_of_next ht, eventRun_cons_of_next ht']
    exact ⟨hfinal, by rw [hresp, hrest]⟩

/-- An abstract step always answers a next state: no command is refused and there is no fault (`60_exceptions.md` R89). -/
theorem stepEvent_next (s : State) (ev : Event) : ∃ t, stepEvent s ev = .next t := by
  obtain ⟨t, _, ht, _⟩ := SameArch.stepEvent (s := s) ⟨rfl, rfl⟩ ev
  exact ⟨t, ht⟩

theorem length_eventRun_responses (s : State) (evs : List Event) : (eventRun s evs).2.length = evs.length := by
  induction evs generalizing s with
  | nil => rfl
  | cons ev evs ih =>
    obtain ⟨t, ht⟩ := stepEvent_next s ev
    rw [eventRun_cons_of_next ht, List.length_cons, List.length_cons, ih]

/-- Settles O22, by induction on the sequence: one step keeps two states in agreement and answers both alike. -/
theorem runIsAFunctionOfItsSequence : Obligations.RunIsAFunctionOfItsSequence := by
  intro s u evs hregs hcfg
  obtain ⟨hfinal, hresp⟩ := SameArch.eventRun ⟨hregs, hcfg⟩ evs
  exact ⟨hfinal.regs, hresp, length_eventRun_responses s evs⟩

end Sys2Proof.Proofs
end

section
/-! PROOFS. The flag-to-bit map (`10_state.md` R18), and who writes and who reads a flag (R27): a command gives a flag the
value `storedFlag` says, and two states that differ in one flag alone are run side by side. -/

namespace Sys2Proof.Proofs

open Sys2Proof.Machine Sys2Proof.Laws

/-! ## The flag-to-bit map -/

theorem flagBit_injective (k k' : Flag) (h : flagBit k = flagBit k') : k = k' := by
  revert h
  cases k <;> cases k' <;> decide

theorem exists_flagBit_eq_iff (n : Nat) : (∃ k, flagBit k = n) ↔ (4 ≤ n ∧ n ≤ 7) := by
  constructor
  · rintro ⟨k, rfl⟩
    cases k <;> decide
  · rintro ⟨h4, h7⟩
    interval_cases n
    · exact ⟨.carry, rfl⟩
    · exact ⟨.halfCarry, rfl⟩
    · exact ⟨.addition, rfl⟩
    · exact ⟨.zero, rfl⟩

theorem setFlag_zero_true (k : Flag) : setFlag 0x00#8 k true = flagMask k := by
  cases k <;> decide

/-- Settles O26: the rows by evaluation, and setting a flag of `f = 0` leaves its mask. -/
theorem flagMapIsTheDocuments : Obligations.FlagMapIsTheDocuments := by
  refine ⟨by decide, by decide, fun _ => rfl, flagBit_injective, exists_flagBit_eq_iff, fun s k hf => ⟨_, rfl, ?_⟩⟩
  simp only [respondZero_regs, putFlags_f, readReg8, hf, setFlag_zero_true]
  cases k <;> decide

/-! ## What a command leaves in a flag -/

theorem getLsbD_splitLow_flagBit (v : Word) (k : Flag) : (splitLow v).getLsbD (flagBit k) = v.getLsbD (flagBit k) := by
  have hbit : flagBit k < 8 := by cases k <;> decide
  simp [splitLow, hbit]

theorem writePair_f (s : State) (p : Pair) (v : Word) :
    (writePair s p v).regs.f = if p = .af then maskF (splitLow v) else s.regs.f := by
  have hhi : p.hi ≠ .f := Pair.hi_ne_lo p .af
  cases p with
  | af => rfl
  | bc | de | hl =>
    rw [writePair, writeReg8_f_of_ne _ _ _ (by decide), writeReg8_f_of_ne _ _ _ hhi]
    rfl

/-- Every command completes and leaves in a flag what it stores there, else the flag's old value. -/
theorem exec_getFlag (i : Instr) (s : State) (k : Flag) :
    ∃ t, exec i s = .next t ∧ getFlag t.regs.f k = (storedFlag k i).getD (getFlag s.regs.f k) := by
  cases i with
  | getf _ | rd8 _ | rdp _ | rdw _ => exact ⟨_, rfl, rfl⟩
  | setf k' v =>
    refine ⟨_, rfl, ?_⟩
    simp only [respondZero_regs, putFlags_f, readReg8, getFlag_setFlag, storedFlag, eq_comm (a := k)]
    split <;> rfl
  | wr8 r v =>
    refine ⟨_, rfl, ?_⟩
    by_cases hr : r = .f
    · subst hr
      exact getFlag_maskF v k
    · simp [storedFlag, hr, writeReg8_f_of_ne]
  | wrp p v =>
    refine ⟨_, rfl, ?_⟩
    by_cases hp : p = .af
    · simp [storedFlag, hp, writePair_f, getFlag_maskF, getLsbD_splitLow_flagBit]
    · simp [storedFlag, hp, writePair_f]
  | wrw w v => exact ⟨_, rfl, by simp [storedFlag]⟩

theorem writer_of_storedFlag {k : Flag} {i : Instr} {b : Bool} (h : storedFlag k i = some b) :
    ∃ v w x, i = .setf k v ∨ i = .wr8 .f w ∨ i = .wrp .af x := by
  cases i with
  | getf _ | rd8 _ | rdp _ | rdw _ | wrw _ _ => cases h
  | setf k' v =>
    have hk : k' = k := by by_contra hk; simp [storedFlag, hk] at h
    exact ⟨v, 0, 0, .inl (hk ▸ rfl)⟩
  | wr8 r v =>
    have hr : r = .f := by by_contra hr; simp [storedFlag, hr] at h
    exact ⟨false, v, 0, .inr (.inl (hr ▸ rfl))⟩
  | wrp p v =>
    have hp : p = .af := by by_contra hp; simp [storedFlag, hp] at h
    exact ⟨false, 0, v, .inr (.inr (hp ▸ rfl))⟩

/-- A command that changes a flag is one that stores there. -/
theorem writer_of_exec_changes_flag {i : Instr} {s t : State} {k : Flag} (h : exec i s = .next t)
    (hne : getFlag t.regs.f k ≠ getFlag s.regs.f k) :
    ∃ v w x, i = .setf k v ∨ i = .wr8 .f w ∨ i = .wrp .af x := by
  obtain ⟨t', ht', hflag⟩ := exec_getFlag i s k
  obtain rfl : t' = t := Host.Outcome.next.inj (ht'.symm.trans h)
  cases hstored : storedFlag k i with
  | none => exact absurd (by rw [hflag, hstored]; rfl) hne
  | some b => exact writer_of_storedFlag hstored

theorem writer_of_edge_changes_flag {s t : State} {p : PortCycle} {k : Flag} (h : edge s p = .next t)
    (hne : getFlag t.regs.f k ≠ getFlag s.regs.f k) :
    p.rst = true ∨ (p.cmdValid = true ∧ ∃ v w x,
      decode s.cfg.hasHL p.command = .command (.setf k v) ∨ decode s.cfg.hasHL p.command = .command (.wr8 .f w) ∨
      decode s.cfg.hasHL p.command = .command (.wrp .af x)) := by
  obtain ⟨hrst, _⟩ | ⟨_, _, he⟩ | ⟨_, _, _, he⟩ | ⟨_, hvalid, i, hdec, he⟩ := edge_cases s p
  · exact .inl hrst
  · obtain rfl := Host.Outcome.next.inj (he.symm.trans h)
    exact absurd rfl hne
  · obtain rfl := Host.Outcome.next.inj (he.symm.trans h)
    exact absurd rfl hne
  · obtain ⟨v, w, x, hi⟩ := writer_of_exec_changes_flag (he.symm.trans h) hne
    exact .inr ⟨hvalid, v, w, x, by simpa only [hdec, Decoded.command.injEq] using hi⟩

/-! ## Two states that differ in one flag -/

theorem writeReg8_putFlags_of_ne (s : State) (x : Byte) {r : Reg8} (hr : r ≠ .f) (v : Byte) :
    writeReg8 (putFlags s x) r v = putFlags (writeReg8 s r v) x := by
  cases r with
  | f => exact absurd rfl hr
  | h | l => cases hHL : s.cfg.hasHL <;> simp [writeReg8, putFlags, hHL]
  | a | b | c | d | e => rfl

/-- `u` is `s` but for the flag `k` of `f`: setting that flag makes the two bytes one. -/
def FlagVariant (k : Flag) (s u : State) : Prop :=
  ∃ x, u = putFlags s x ∧ setFlag x k true = setFlag s.regs.f k true

theorem flagVariant_flip (s : State) (k : Flag) : FlagVariant k s (putFlags s (s.regs.f ^^^ flagMask k)) := by
  refine ⟨_, rfl, ?_⟩
  generalize s.regs.f = f
  revert f
  cases k <;> decide

theorem setFlag_agree {k : Flag} {f x : Byte} (h : setFlag x k true = setFlag f k true) (k' : Flag) (v : Bool) :
    setFlag (setFlag x k' v) k true = setFlag (setFlag f k' v) k true := by
  by_cases hk : k' = k
  · rw [hk, setFlag_setFlag_same, setFlag_setFlag_same, h]
  · rw [setFlag_comm _ _ _ _ _ hk, setFlag_comm _ _ _ _ _ hk, h]

section
variable {k : Flag} {s u : State} (h : FlagVariant k s u)
include h

theorem FlagVariant.readReg8_eq {r : Reg8} (hr : r ≠ .f) : readReg8 u r = readReg8 s r := by
  obtain ⟨x, rfl, _⟩ := h
  cases r with
  | f => exact absurd rfl hr
  | a | b | c | d | e | h | l => rfl

theorem FlagVariant.readPair_eq {p : Pair} (hp : p ≠ .af) : readPair u p = readPair s p := by
  have hlo : p.lo ≠ .f := by
    cases p with
    | af => exact absurd rfl hp
    | bc | de | hl => decide
  rw [readPair, readPair, h.readReg8_eq (Pair.hi_ne_lo p .af), h.readReg8_eq hlo]

theorem FlagVariant.readReg16_eq (w : Reg16) : readReg16 u w = readReg16 s w := by
  obtain ⟨x, rfl, _⟩ := h
  cases w <;> rfl

theorem FlagVariant.getFlag_eq {k' : Flag} (hk : k' ≠ k) : getFlag u.regs.f k' = getFlag s.regs.f k' := by
  obtain ⟨x, rfl, hx⟩ := h
  simpa only [getFlag_setFlag, if_neg hk, putFlags_f] using congrArg (getFlag · k') hx

theorem FlagVariant.respond {v v' : Word} (hv : v' = v) : FlagVariant k (respond s v) (respond u v') := by
  obtain ⟨x, rfl, hx⟩ := h
  subst hv
  exact ⟨x, rfl, hx⟩

theorem FlagVariant.setFlag (k' : Flag) (v : Bool) :
    FlagVariant k (putFlags s (setFlag s.regs.f k' v)) (putFlags u (setFlag u.regs.f k' v)) := by
  obtain ⟨x, rfl, hx⟩ := h
  exact ⟨_, rfl, setFlag_agree hx k' v⟩

theorem FlagVariant.writeReg8 (r : Reg8) (v : Byte) : FlagVariant k (writeReg8 s r v) (writeReg8 u r v) := by
  obtain ⟨x, rfl, hx⟩ := h
  by_cases hr : r = .f
  · subst hr
    exact ⟨_, rfl, rfl⟩
  · exact ⟨x, writeReg8_putFlags_of_ne s x hr v, by rw [hx, writeReg8_f_of_ne _ _ _ hr]⟩

theorem FlagVariant.writePair (p : Pair) (v : Word) : FlagVariant k (writePair s p v) (writePair u p v) :=
  (h.writeReg8 p.hi _).writeReg8 p.lo _

theorem FlagVariant.writeReg16 (w : Reg16) (v : Word) : FlagVariant k (writeReg16 s w v) (writeReg16 u w v) := by
  obtain ⟨x, rfl, hx⟩ := h
  exact ⟨x, by cases w <;> rfl, by rw [hx, writeReg16_f]⟩

end

/-- A command that does not read the flag into its response answers both states with one response and next states that
again differ in that flag at most. -/
theorem FlagVariant.exec {k : Flag} {s u : State} (h : FlagVariant k s u) (i : Instr) (hgetf : i ≠ .getf k)
    (hrd8 : i ≠ .rd8 .f) (hrdp : i ≠ .rdp .af) :
    ∃ t t', exec i s = .next t ∧ exec i u = .next t' ∧ FlagVariant k t t' := by
  cases i with
  | getf k' =>
    have hk : k' ≠ k := fun hk => hgetf (congrArg _ hk)
    exact ⟨_, _, rfl, rfl, h.respond (congrArg zextBit (h.getFlag_eq hk))⟩
  | rd8 r =>
    have hr : r ≠ .f := fun hr => hrd8 (congrArg _ hr)
    exact ⟨_, _, rfl, rfl, h.respond (congrArg zext16 (h.readReg8_eq hr))⟩
  | rdp p =>
    have hp : p ≠ .af := fun hp => hrdp (congrArg _ hp)
    exact ⟨_, _, rfl, rfl, h.respond (h.readPair_eq hp)⟩
  | rdw w => exact ⟨_, _, rfl, rfl, h.respond (h.readReg16_eq w)⟩
  | setf k' v => exact ⟨_, _, rfl, rfl, (h.setFlag k' v).respond rfl⟩
  | wr8 r v => exact ⟨_, _, rfl, rfl, (h.writeReg8 r v).respond rfl⟩
  | wrp p v => exact ⟨_, _, rfl, rfl, (h.writePair p v).respond rfl⟩
  | wrw w v => exact ⟨_, _, rfl, rfl, (h.writeReg16 w v).respond rfl⟩

/-- Settles O34: an edge that changes the flag runs a command that stores there, and two states that differ in the flag
alone stay so under every command that does not read it. -/
theorem flagsHaveNoOtherWritersOrReaders : Obligations.FlagsHaveNoOtherWritersOrReaders := by
  refine ⟨fun s t p k h hne => writer_of_edge_changes_flag h hne, fun s k i hgetf hrd8 hrdp => ?_⟩
  obtain ⟨t, u, ht, hu, x, rfl, hx⟩ := (flagVariant_flip s k).exec i hgetf hrd8 hrdp
  exact ⟨t, _, ht, hu, rfl, rfl, hx⟩

end Sys2Proof.Proofs
end

section
/-! PROOFS. Accesses of different widths to one storage agree (`20_memory.md` R34): what a pair write leaves in each half,
what a byte write to either half leaves in the pair, and what a flag write leaves in each bit of `f`. -/

namespace Sys2Proof.Proofs

open Sys2Proof.Machine Sys2Proof.Laws

/-! ## The halves of a pair -/

theorem present_hi {hasHL : Bool} {p : Pair} (hp : p.present hasHL = true) : p.hi.present hasHL = true := by
  cases p <;> exact hp

theorem present_lo {hasHL : Bool} {p : Pair} (hp : p.present hasHL = true) : p.lo.present hasHL = true := by
  cases p <;> exact hp

theorem storedIn_hi (p : Pair) (v : Byte) : storedIn p.hi v = v := if_neg (Pair.hi_ne_lo p .af)

/-- The low half that is masked is that of `af` (`10_state.md` R16). -/
theorem storedIn_lo (p : Pair) (v : Byte) : storedIn p.lo v = if p = .af then v &&& 0xF0#8 else v := by
  cases p <;> rfl

theorem readPair_respondZero (s : State) (p : Pair) : readPair (respondZero s) p = readPair s p := by
  simp only [readPair, readReg8_respondZero]

section
variable {s : State} {p : Pair} (hp : p.present s.cfg.hasHL = true)
include hp

theorem readPair_writeReg8_hi (v : Byte) :
    readPair (writeReg8 s p.hi v) p = pairValue v (readReg8 s p.lo) := by
  rw [readPair, readReg8_writeReg8_same _ _ _ (present_hi hp), storedIn_hi,
    readReg8_writeReg8_other _ _ _ _ (Pair.hi_ne_lo p p).symm]

theorem readPair_writeReg8_lo (v : Byte) :
    readPair (writeReg8 s p.lo v) p = pairValue (readReg8 s p.hi) (storedIn p.lo v) := by
  rw [readPair, readReg8_writeReg8_same _ _ _ (present_lo hp), readReg8_writeReg8_other _ _ _ _ (Pair.hi_ne_lo p p)]

theorem readReg8_hi_writePair (v : Word) : readReg8 (writePair s p v) p.hi = splitHigh v := by
  rw [writePair, readReg8_writeReg8_other _ _ _ _ (Pair.hi_ne_lo p p),
    readReg8_writeReg8_same _ _ _ (present_hi hp), storedIn_hi]

theorem readReg8_lo_writePair (v : Word) : readReg8 (writePair s p v) p.lo = storedIn p.lo (splitLow v) := by
  rw [writePair, readReg8_writeReg8_same]
  rw [writeReg8_cfg]
  exact present_lo hp

/-! ## Pair writes read as bytes, byte writes read as pairs -/

theorem exec_wrp_then_rd8 (v : Word) : ∃ t x y,
    exec (.wrp p v) s = .next t ∧ exec (.rd8 p.hi) t = .next x ∧ exec (.rd8 p.lo) t = .next y ∧
    x.rdata = zext16 (splitHigh v) ∧ y.rdata = zext16 (storedIn p.lo (splitLow v)) := by
  refine ⟨_, _, _, rfl, rfl, rfl, ?_, ?_⟩
  · simp only [respond_rdata, readReg8_respondZero, readReg8_hi_writePair hp]
  · simp only [respond_rdata, readReg8_respondZero, readReg8_lo_writePair hp]

theorem exec_wr8_hi_then_rdp (v : Byte) : ∃ t x,
    exec (.wr8 p.hi v) s = .next t ∧ exec (.rdp p) t = .next x ∧ x.rdata = pairValue v (readReg8 s p.lo) :=
  ⟨_, _, rfl, rfl, by rw [respond_rdata, readPair_respondZero, readPair_writeReg8_hi hp]⟩

theorem exec_wr8_lo_then_rdp (v : Byte) : ∃ t x,
    exec (.wr8 p.lo v) s = .next t ∧ exec (.rdp p) t = .next x ∧
    x.rdata = pairValue (readReg8 s p.hi) (storedIn p.lo v) :=
  ⟨_, _, rfl, rfl, by rw [respond_rdata, readPair_respondZero, readPair_writeReg8_lo hp]⟩

end

/-- Both halves written, the low one first, read back as the pair. -/
theorem exec_wr8_lo_hi_then_rdp {s : State} {p : Pair} (hp : p.present s.cfg.hasHL = true) (u w : Byte) : ∃ t t' x,
    exec (.wr8 p.lo w) s = .next t ∧ exec (.wr8 p.hi u) t = .next t' ∧ exec (.rdp p) t' = .next x ∧
    x.rdata = pairValue u (storedIn p.lo w) := by
  have hcfg : (respondZero (writeReg8 s p.lo w)).cfg = s.cfg := by rw [respondZero_cfg, writeReg8_cfg]
  obtain ⟨t', x, ht', hx, hval⟩ := exec_wr8_hi_then_rdp (s := respondZero (writeReg8 s p.lo w)) (by rwa [hcfg]) u
  refine ⟨_, t', x, rfl, ht', hx, ?_⟩
  rw [hval, readReg8_respondZero, readReg8_writeReg8_same _ _ _ (present_lo hp)]

/-- A byte write to either half is seen through the pair, which shows the other half as it was. -/
theorem exec_wr8_half_then_rdp {s : State} {p : Pair} (hp : p.present s.cfg.hasHL = true) (v : Byte) :
    ∃ x hi hi' lo lo', exec (.rdp p) s = .next x ∧
      exec (.wr8 p.hi v) s = .next hi ∧ exec (.rdp p) hi = .next hi' ∧
      exec (.wr8 p.lo v) s = .next lo ∧ exec (.rdp p) lo = .next lo' ∧
      hi'.rdata = pairValue v (splitLow x.rdata) ∧
      lo'.rdata = pairValue (splitHigh x.rdata) (storedIn p.lo v) := by
  obtain ⟨hi, hi', hhi, hhi', hval⟩ := exec_wr8_hi_then_rdp hp v
  obtain ⟨lo, lo', hlo, hlo', hval'⟩ := exec_wr8_lo_then_rdp hp v
  refine ⟨_, hi, hi', lo, lo', rfl, hhi, hhi', hlo, hlo', ?_, ?_⟩
  · rw [hval, respond_rdata, readPair, splitLow_pairValue]
  · rw [hval', respond_rdata, readPair, splitHigh_pairValue]

/-! ## Flags seen through the byte and the pair -/

/-- A flag reads back as what a write through any view stored in it. -/
theorem exec_then_getf {k : Flag} {i : Instr} {b : Bool} (hb : storedFlag k i = some b) (s : State) :
    ∃ t x, exec i s = .next t ∧ exec (.getf k) t = .next x ∧ x.rdata = zextBit b := by
  obtain ⟨t, ht, hflag⟩ := exec_getFlag i s k
  rw [hb, Option.getD_some] at hflag
  exact ⟨t, _, ht, rfl, congrArg zextBit hflag⟩

theorem flagBit_lt (k : Flag) : flagBit k < 8 := by
  cases k <;> decide

theorem getLsbD_flagMask (k : Flag) (n : Nat) : (flagMask k).getLsbD n = decide (n = flagBit k) := by
  rw [flagMask, ← BitVec.twoPow_eq, BitVec.getLsbD_twoPow, decide_eq_true (flagBit_lt k), Bool.true_and]
  exact decide_eq_decide.mpr eq_comm

theorem getLsbD_setFlag (f : Byte) (k : Flag) (v : Bool) (n : Nat) :
    (setFlag f k v).getLsbD n = if n = flagBit k then v else f.getLsbD n := by
  cases v with
  | true => by_cases hn : n = flagBit k <;> simp [setFlag, getLsbD_flagMask, hn]
  | false =>
    by_cases hn : n = flagBit k
    · simp [setFlag, getLsbD_flagMask, hn]
    · simpa [setFlag, getLsbD_flagMask, hn] using BitVec.lt_of_getLsbD

theorem getLsbD_zext16 (v : Byte) (n : Nat) : (zext16 v).getLsbD n = v.getLsbD n := by
  rw [zext16, BitVec.getLsbD_setWidth, Bool.and_eq_right_iff_imp, decide_eq_true_eq]
  intro hbit
  exact (BitVec.lt_of_getLsbD hbit).trans (by decide)

theorem getLsbD_pairValue_setFlag (u f : Byte) (k : Flag) (v : Bool) (n : Nat) :
    (pairValue u (setFlag f k v)).getLsbD n = if n = flagBit k then v else (pairValue u f).getLsbD n := by
  have hk := flagBit_lt k
  simp only [pairValue, BitVec.getLsbD_append, getLsbD_setFlag]
  by_cases hn : n < 8
  · simp only [if_pos hn]
  · have hne : n ≠ flagBit k := by omega
    simp only [if_neg hn, if_neg hne]

theorem readReg8_f (s : State) : readReg8 s .f = s.regs.f := rfl

theorem readPair_af (s : State) : readPair s .af = pairValue s.regs.a s.regs.f := rfl

@[simp] theorem putFlags_a (s : State) (x : Byte) : (putFlags s x).regs.a = s.regs.a := rfl

/-- `SETF` changes its own bit of what `RD8 f` and `RDP af` answer, and no other. -/
theorem setf_then_reads (s : State) (k : Flag) (v : Bool) : ∃ t f f' af af', exec (.setf k v) s = .next t ∧
    exec (.rd8 .f) s = .next f ∧ exec (.rd8 .f) t = .next f' ∧
    exec (.rdp .af) s = .next af ∧ exec (.rdp .af) t = .next af' ∧
    (∀ n, n < 16 → f'.rdata.getLsbD n = if n = flagBit k then v else f.rdata.getLsbD n) ∧
    (∀ n, n < 16 → af'.rdata.getLsbD n = if n = flagBit k then v else af.rdata.getLsbD n) := by
  refine ⟨_, _, _, _, _, rfl, rfl, rfl, rfl, rfl, fun n _ => ?_, fun n _ => ?_⟩
  · simp only [respond_rdata, readReg8_f, respondZero_regs, putFlags_f, getLsbD_zext16, getLsbD_setFlag]
  · simp only [respond_rdata, readPair_af, readReg8_f, respondZero_regs, putFlags_a, putFlags_f, getLsbD_pairValue_setFlag]

/-- Settles O46: each clause is one view written and another read; the rule's literals are instances. -/
theorem mixedWidthAccessesAgree : Obligations.MixedWidthAccessesAgree := by
  refine ⟨fun s => ?_, fun s => ?_, fun s p v hp => ?_, fun s p v hp => ?_,
    fun s p u w hp => ?_, fun s v k => exec_then_getf rfl s, fun s v k => exec_then_getf rfl s, setf_then_reads⟩
  · obtain ⟨t, x, ht, hx, hval⟩ := exec_wr8_lo_then_rdp (s := respondZero (writeReg8 s .b 0x12#8)) (p := .bc) rfl 0x34#8
    exact ⟨_, t, x, rfl, ht, hx, hval.trans (by decide : pairValue 0x12#8 0x34#8 = 0x1234#16)⟩
  · obtain ⟨t, x, y, ht, hx, hy, hhi, hlo⟩ := exec_wrp_then_rd8 (s := s) (p := .de) rfl 0xBEEF#16
    exact ⟨t, x, y, ht, hx, hhi, hy, hlo⟩
  · have h := exec_wrp_then_rd8 hp v
    simp only [storedIn_lo, apply_ite zext16] at h
    exact h
  · have h := exec_wr8_half_then_rdp hp v
    rw [storedIn_lo] at h
    exact h
  · have h := exec_wr8_lo_hi_then_rdp hp u w
    rw [storedIn_lo] at h
    exact h

end Sys2Proof.Proofs
end

section
/-! PROOFS. The flag commands (`40_flag_ops.md` R63 to R68): what every command leaves in the byte `f`, said once; the
low-nibble invariant along a run; and the laws of `SETF` and `GETF`. -/

namespace Sys2Proof.Proofs

open Sys2Proof.Machine Sys2Proof.Laws

/-! ## What a command leaves in `f` -/

/-- What a command leaves in `f` where it finds `f` there (R63, R71, R76); `exec_f` ties it to the model. -/
def fAfter : Instr → Byte → Byte
  | .setf k v, f => setFlag f k v
  | .wr8 r v, f => if r = .f then maskF v else f
  | .wrp p v, f => if p = .af then maskF (splitLow v) else f
  | .getf _, f | .rd8 _, f | .rdp _, f | .rdw _, f | .wrw _ _, f => f

theorem writeReg8_f (s : State) (r : Reg8) (v : Byte) :
    (writeReg8 s r v).regs.f = if r = .f then maskF v else s.regs.f := by
  split
  · subst r
    rfl
  · exact writeReg8_f_of_ne s r v ‹_›

theorem exec_f (i : Instr) (s : State) : ∃ t, exec i s = .next t ∧ t.regs.f = fAfter i s.regs.f := by
  cases i with
  | getf _ | setf _ _ | rd8 _ | rdp _ | rdw _ => exact ⟨_, rfl, rfl⟩
  | wr8 r v => exact ⟨_, rfl, writeReg8_f s r v⟩
  | wrp p v => exact ⟨_, rfl, writePair_f s p v⟩
  | wrw w v => exact ⟨_, rfl, writeReg16_f s v w⟩

theorem fAfter_lowNibble (i : Instr) {f : Byte} (hf : f &&& 0x0F#8 = 0#8) : fAfter i f &&& 0x0F#8 = 0#8 := by
  cases i with
  | getf _ | rd8 _ | rdp _ | rdw _ | wrw _ _ => exact hf
  | setf k v => exact setFlag_lowNibble f k v hf
  | wr8 r v =>
    simp only [fAfter]
    split
    · exact maskF_lowNibble v
    · exact hf
  | wrp p v =>
    simp only [fAfter]
    split
    · exact maskF_lowNibble (splitLow v)
    · exact hf

/-- A command other than `SETF` leaves `f`, or gives it a value that the old flags have no part in. -/
theorem fAfter_eq_self_or_const {i : Instr} (hi : ∀ k v, i ≠ .setf k v) :
    (∀ f, fAfter i f = f) ∨ ∃ x, ∀ f, fAfter i f = x := by
  cases i with
  | getf _ | rd8 _ | rdp _ | rdw _ | wrw _ _ => exact .inl fun _ => rfl
  | setf k v => exact absurd rfl (hi k v)
  | wr8 r v =>
    by_cases hr : r = .f
    · exact .inr ⟨maskF v, fun _ => if_pos hr⟩
    · exact .inl fun _ => if_neg hr
  | wrp p v =>
    by_cases hp : p = .af
    · exact .inr ⟨maskF (splitLow v), fun _ => if_pos hp⟩
    · exact .inl fun _ => if_neg hp

/-! ## The low nibble along a run (`40_flag_ops.md` R67) -/

/-- What every abstract step keeps holds at the end of every run. -/
theorem eventRun_keeps {P : State → Prop} (hstep : ∀ {s t : State} (ev : Event), P s → stepEvent s ev = .next t → P t)
    {s : State} (hs : P s) (evs : List Event) : P (eventRun s evs).1 := by
  induction evs generalizing s with
  | nil => exact hs
  | cons ev evs ih =>
    obtain ⟨t, ht⟩ := stepEvent_next s ev
    rw [eventRun_cons_of_next ht]
    exact ih (hstep ev hs ht)

theorem exec_keeps_lowNibble {i : Instr} {s t : State} (hs : s.regs.lowNibbleClear) (h : exec i s = .next t) :
    t.regs.lowNibbleClear := by
  obtain ⟨t', ht', hf⟩ := exec_f i s
  obtain rfl := Host.Outcome.next.inj (ht'.symm.trans h)
  rw [RegisterFile.lowNibbleClear, hf]
  exact fAfter_lowNibble i hs

theorem stepEvent_keeps_lowNibble {s t : State} (ev : Event) (hs : s.regs.lowNibbleClear)
    (h : stepEvent s ev = .next t) : t.regs.lowNibbleClear := by
  cases ev with
  | reset =>
    obtain rfl := Host.Outcome.next.inj h
    exact (applyReset_meets_inv s).left
  | command c =>
    simp only [stepEvent, stepCommand] at h
    split at h
    · exact exec_keeps_lowNibble hs h
    · obtain rfl := Host.Outcome.next.inj h
      exact hs

/-- Settles O20: every abstract step keeps the low nibble clear, so every run of commands does. -/
theorem lowNibbleStaysClearAfterAnyCommands : Obligations.LowNibbleStaysClearAfterAnyCommands :=
  fun _ cs hs => eventRun_keeps (P := fun s => s.regs.lowNibbleClear) stepEvent_keeps_lowNibble hs (cs.map .command)

/-! ## `SETF` (`40_flag_ops.md` R63) -/

theorem exec_setf (s : State) (k : Flag) (v : Bool) :
    exec (.setf k v) s = .next (respondZero (putFlags s (setFlag s.regs.f k v))) := rfl

theorem exec_getf (s : State) (k : Flag) :
    exec (.getf k) s = .next (respond s (zextBit (getFlag s.regs.f k))) := rfl

/-- The decoder evaluated on each of the eight words of `SETF`. -/
theorem decode_setf_word (hasHL : Bool) (k : Flag) (v : Bool) (wdata : Word) :
    decode hasHL { cmd := 0x10#8 ||| ((BitVec.ofBool v).setWidth 8 <<< 2) ||| flagSelector k, wdata := wdata } =
      .command (.setf k v) := by
  cases k <;> cases v <;> simp [decode, flagSelector, ifZero, flagOfSelector]

/-- The mask as R51 writes it, by the selector's number. -/
theorem shiftRight_flagSelector (k : Flag) : 0x80#8 >>> (flagSelector k).toNat = flagMask k := by
  cases k <;> rfl

theorem setFlag_of_getFlag_eq {f : Byte} {k : Flag} {v : Bool} (h : getFlag f k = v) : setFlag f k v = f := by
  refine BitVec.eq_of_getLsbD_eq fun n _ => ?_
  rw [getLsbD_setFlag]
  split
  · subst n
    exact h.symm
  · rfl

/-- The pseudocode's next state, and what it says of `f`: bit by bit, for a flag that has the value already, and for the
low nibble. -/
theorem exec_setf_whole (s : State) (k : Flag) (v : Bool) :
    ∃ t, exec (.setf k v) s = .next t ∧
      t = { s with
        regs := { s.regs with
          f := if v = true then s.regs.f ||| (0x80#8 >>> (flagSelector k).toNat)
               else s.regs.f &&& ~~~(0x80#8 >>> (flagSelector k).toNat) },
        rdata := 0x0000#16 } ∧
      (∀ n, n < 8 → t.regs.f.getLsbD n = if n = flagBit k then v else s.regs.f.getLsbD n) ∧
      (getFlag s.regs.f k = v → t.regs.f = s.regs.f) ∧
      (s.regs.lowNibbleClear → t.regs.lowNibbleClear) := by
  refine ⟨_, exec_setf s k v, ?_, fun n _ => getLsbD_setFlag _ _ _ n, setFlag_of_getFlag_eq, setFlag_lowNibble _ k v⟩
  rw [shiftRight_flagSelector]
  rfl

/-- The only command that makes the new flags from the old ones is `SETF`. -/
theorem exec_f_self_or_const (s : State) {i : Instr} (hi : ∀ k v, i ≠ .setf k v) : ∃ t, exec i s = .next t ∧
    (t.regs.f = s.regs.f ∨ ∀ u : State, ∃ x, exec i u = .next x ∧ x.regs.f = t.regs.f) := by
  obtain ⟨t, ht, hf⟩ := exec_f i s
  refine ⟨t, ht, ?_⟩
  obtain hself | ⟨x, hconst⟩ := fAfter_eq_self_or_const hi
  · exact .inl (hf.trans (hself _))
  · refine .inr fun u => ?_
    obtain ⟨t', ht', hf'⟩ := exec_f i u
    exact ⟨t', ht', by rw [hf', hf, hconst, hconst]⟩

/-- Settles O28, clause by clause; the two examples evaluate what `SETF` leaves in `f`. -/
theorem setfSetsExactlyTheNamedFlag : Obligations.SetfSetsExactlyTheNamedFlag := by
  refine ⟨decode_setf_word, exec_setf_whole, fun s i hi => exec_f_self_or_const s hi, fun s hf => ?_, fun s hf => ?_⟩
  · obtain ⟨t, ht, htf⟩ := exec_f (.setf .zero true) s
    exact ⟨t, ht, by rw [htf, hf]; rfl⟩
  · obtain ⟨t, ht, htf⟩ := exec_f (.setf .carry false) s
    exact ⟨t, ht, by rw [htf, hf]; rfl⟩

/-! ## `SETF` and `GETF` together (`40_flag_ops.md` R65, R66, R68) -/

theorem zextBit_eq_setWidth (v : Bool) : zextBit v = (BitVec.ofBool v).setWidth 16 := by
  cases v <;> rfl

/-- Settles O30: `GETF` answers what `SETF` stored in the flag. -/
theorem getAfterSetReturnsTheBit : Obligations.GetAfterSetReturnsTheBit := by
  intro s k v
  obtain ⟨t, u, ht, hu, hval⟩ := exec_then_getf (i := .setf k v) (if_pos rfl) s
  exact ⟨t, u, ht, hu, hval.trans (zextBit_eq_setWidth v)⟩

theorem flagMask_and_flagMask_of_ne {k k' : Flag} (hk : k ≠ k') : flagMask k &&& flagMask k' = 0x00#8 := by
  refine BitVec.eq_of_getLsbD_eq fun n _ => ?_
  rw [BitVec.getLsbD_and, getLsbD_flagMask, getLsbD_flagMask, BitVec.getLsbD_zero, ← Bool.decide_and,
    decide_eq_false_iff_not]
  rintro ⟨hn, hn'⟩
  exact hk (flagBit_injective k k' (hn.symm.trans hn'))

theorem flagVariant_setFlag (s : State) (k : Flag) (v : Bool) : FlagVariant k s (putFlags s (setFlag s.regs.f k v)) :=
  ⟨_, rfl, setFlag_setFlag_same _ _ _ _⟩

/-- Settles O31: the state after `SETF k, v` differs from the one before in the flag `k` at most, so every read of other
storage answers the same. -/
theorem settingOneFlagLeavesTheRest : Obligations.SettingOneFlagLeavesTheRest := by
  refine ⟨fun s k k' v hk => ?_, fun _ _ => flagMask_and_flagMask_of_ne, fun s k v => ?_⟩
  · have hflag := (flagVariant_setFlag s k v).getFlag_eq hk.symm
    exact ⟨_, _, _, exec_setf s k v, exec_getf s k', exec_getf _ k', congrArg zextBit hflag⟩
  · refine ⟨_, exec_setf s k v, fun r hr => ?_, rfl, rfl⟩
    rw [readReg8_respondZero, (flagVariant_setFlag s k v).readReg8_eq hr]

theorem respondZero_putFlags_twice (s : State) (x y : Byte) :
    respondZero (putFlags (respondZero (putFlags s x)) y) = respondZero (putFlags s y) := rfl

/-- Settles O32: the second `SETF` finds the flag as it sets it. -/
theorem setfIsIdempotent : Obligations.SetfIsIdempotent := by
  refine fun s k v => ⟨_, exec_setf s k v, ?_⟩
  rw [exec_setf, respondZero_putFlags_twice, respondZero_regs, putFlags_f, setFlag_setFlag_same]

end Sys2Proof.Proofs
end

section
/-! PROOFS. The pair commands (`42_pair_ops.md` R75, R78, R80): what `RDP` answers, and reads and writes of a pair
beside those of its halves. -/

namespace Sys2Proof.Proofs

open Sys2Proof.Machine Sys2Proof.Laws

/-! ## What `RDP` answers (`42_pair_ops.md` R75) -/

/-- The decoder evaluated on each of the four words of `RDP`. -/
theorem decode_rdp_word (hasHL : Bool) (p : Pair) (wdata : Word) :
    decode hasHL { cmd := 0x40#8 ||| pairSelector p, wdata := wdata } = ifPresent (p.present hasHL) (.rdp p) := by
  cases p <;> simp [decode, pairSelector, ifZero, pairOfSelector]

theorem ifPresent_present_true (p : Pair) (i : Instr) : ifPresent (p.present true) i = .command i := by
  cases p <;> rfl

/-- Without `HAS_HL` the one absent pair is `hl` (`10_state.md` R21, R30). -/
theorem ifPresent_present_false (p : Pair) (i : Instr) :
    ifPresent (p.present false) i = if p = .hl then .reserved .absentRegister else .command i := by
  cases p <;> rfl

theorem exec_rdp (s : State) (p : Pair) : exec (.rdp p) s = .next (respond s (readPair s p)) := rfl

theorem pairValue_eq_shiftLeft_or (u v : Byte) : pairValue u v = (u.setWidth 16 <<< 8) ||| v.setWidth 16 := by
  rw [pairValue, BitVec.append_def, BitVec.shiftLeftZeroExtend_eq, BitVec.setWidth'_eq]

theorem readReg8_h (s : State) (hHL : s.cfg.hasHL = true) : readReg8 s .h = s.regs.h := if_pos hHL

theorem readReg8_l (s : State) (hHL : s.cfg.hasHL = true) : readReg8 s .l = s.regs.l := if_pos hHL

/-- R75's result in the arithmetic form, for any pair. -/
theorem exec_rdp_shiftLeft_or (s : State) (p : Pair) : exec (.rdp p) s =
    .next (respond s (((readReg8 s p.hi).setWidth 16 <<< 8) ||| (readReg8 s p.lo).setWidth 16)) := by
  rw [exec_rdp, readPair, pairValue_eq_shiftLeft_or]

/-- The low four bits of a pair are those of its low half. -/
theorem pairValue_and_low_nibble (u : Byte) {v : Byte} (hv : v &&& 0x0F#8 = 0#8) :
    pairValue u v &&& 0x000F#16 = 0x0000#16 := by
  calc pairValue u v &&& 0x000F#16
      = (u ++ v) &&& (0x00#8 ++ 0x0F#8) := rfl
    _ = (u &&& 0x00#8) ++ (v &&& 0x0F#8) := BitVec.and_append
    _ = 0x0000#16 := by rw [hv, BitVec.and_zero]; rfl

theorem readPair_reset (p : Pair) : readPair State.reset p = 0x0000#16 := by
  cases p <;> decide

/-- Settles O40, clause by clause: the encoding, the whole next state, and what the answer is in the states it names. -/
theorem rdpReturnsHighThenLow : Obligations.RdpReturnsHighThenLow := by
  refine ⟨fun p wdata => ⟨?_, ?_⟩, fun s p hp => ?_, fun s hs => ?_, fun p => ?_, fun s hb hc => ?_⟩
  · rw [decode_rdp_word, ifPresent_present_true]
  · rw [decode_rdp_word, ifPresent_present_false]
  · rw [exec_rdp_shiftLeft_or]
    cases p with
    | af | bc | de => rfl
    | hl =>
      rw [Pair.hi, Pair.lo, readReg8_h s hp, readReg8_l s hp]
      rfl
  · exact ⟨_, exec_rdp s .af, pairValue_and_low_nibble s.regs.a hs⟩
  · exact ⟨_, exec_rdp State.reset p, readPair_reset p⟩
  · have hval : readPair s .bc = pairValue 0x12#8 0x34#8 := congrArg₂ pairValue hb hc
    exact ⟨_, exec_rdp s .bc, hval.trans (by decide)⟩

/-! ## A pair written and read back (`42_pair_ops.md` R78) -/

theorem readPair_writePair {s : State} {p : Pair} (hp : p.present s.cfg.hasHL = true) (v : Word) :
    readPair (writePair s p v) p = pairValue (splitHigh v) (storedIn p.lo (splitLow v)) := by
  rw [readPair, readReg8_hi_writePair hp, readReg8_lo_writePair hp]

theorem storedIn_lo_of_ne_af {p : Pair} (hp : p ≠ .af) (v : Byte) : storedIn p.lo v = v := by
  rw [storedIn_lo, if_neg hp]

/-- A register that is written with what it reads stays as it is, and so does all else; for `f`, which a write masks,
because its low nibble is clear. -/
theorem writeReg8_readReg8 {s : State} (hs : s.regs.lowNibbleClear) (r : Reg8) : writeReg8 s r (readReg8 s r) = s := by
  cases r with
  | a | b | c | d | e => rfl
  | f => exact congrArg (putFlags s) (maskF_of_lowNibble _ hs)
  | h | l => cases hHL : s.cfg.hasHL <;> simp [writeReg8, readReg8, hHL]

/-- The same of a pair: both its halves stay as they are. -/
theorem writePair_readPair {s : State} (hs : s.regs.lowNibbleClear) (p : Pair) : writePair s p (readPair s p) = s := by
  rw [writePair, readPair, splitHigh_pairValue, splitLow_pairValue, writeReg8_readReg8 hs, writeReg8_readReg8 hs]

/-- Settles O43: the halves of a written pair join to the value, and a pair written with what it reads stays. -/
theorem pairRoundTrip : Obligations.PairRoundTrip := by
  refine ⟨fun s p v hne hp => ⟨_, _, rfl, exec_rdp _ p, ?_⟩, fun s p hs => ⟨_, _, exec_rdp s p, rfl, ?_⟩⟩
  · rw [respond_rdata, readPair_respondZero, readPair_writePair hp, storedIn_lo_of_ne_af hne, pairValue_split]
  · rw [respondZero_regs, respond_rdata, writePair_readPair hs]

/-! ## A pair and its halves (`42_pair_ops.md` R80) -/

/-- Both halves written, the high one first, read back as the pair. -/
theorem exec_wr8_hi_lo_then_rdp {s : State} {p : Pair} (hp : p.present s.cfg.hasHL = true) (u w : Byte) : ∃ t t' x,
    exec (.wr8 p.hi u) s = .next t ∧ exec (.wr8 p.lo w) t = .next t' ∧ exec (.rdp p) t' = .next x ∧
    x.rdata = pairValue u (storedIn p.lo w) := by
  have hcfg : (respondZero (writeReg8 s p.hi u)).cfg = s.cfg := by rw [respondZero_cfg, writeReg8_cfg]
  obtain ⟨t', x, ht', hx, hval⟩ := exec_wr8_lo_then_rdp (s := respondZero (writeReg8 s p.hi u)) (by rwa [hcfg]) w
  refine ⟨_, t', x, rfl, ht', hx, ?_⟩
  rw [hval, readReg8_respondZero, readReg8_writeReg8_same _ _ _ (present_hi hp), storedIn_hi]

/-- Settles O45: that a pair write splits is a clause of R34, settled with it; the two byte writes join. -/
theorem pairSplitsIntoItsHalves : Obligations.PairSplitsIntoItsHalves := by
  obtain ⟨_, _, hsplit, _⟩ := mixedWidthAccessesAgree
  refine ⟨hsplit, fun s p u w hne hp => ?_⟩
  have hjoin := exec_wr8_hi_lo_then_rdp hp u w
  rw [storedIn_lo_of_ne_af hne] at hjoin
  exact hjoin

end Sys2Proof.Proofs
end

section
/-! PROOFS. No control transfer (`43_word_ops.md` R84): what every command leaves in a 16-bit register and in the pins to
come, and that the one command that stores in `pc` is `WRW pc`. -/

namespace Sys2Proof.Proofs

open Sys2Proof.Machine Sys2Proof.Laws

/-- A command's outcome: a reserved word does nothing, any other word runs its instruction. -/
theorem stepCommand_cases (s : State) (c : Command) :
    stepCommand s c = .next (respondZero s) ∨
    ∃ i, decode s.cfg.hasHL c = .command i ∧ stepCommand s c = exec i s := by
  unfold stepCommand
  cases decode s.cfg.hasHL c with
  | command i => exact .inr ⟨i, rfl, rfl⟩
  | reserved _ => exact .inl rfl

theorem storedWord_eq_some_iff {w : Reg16} {i : Instr} {v : Word} : storedWord w i = some v ↔ i = .wrw w v := by
  cases i with
  | wrw w' v' => by_cases hw : w' = w <;> simp [storedWord, hw]
  | getf _ | setf _ _ | rd8 _ | wr8 _ _ | rdp _ | wrp _ _ | rdw _ => simp [storedWord]

/-- Every command completes and leaves in a 16-bit register what it stores there, else the old value. -/
theorem exec_readReg16 (i : Instr) (s : State) (w : Reg16) :
    ∃ t, exec i s = .next t ∧ readReg16 t w = (storedWord w i).getD (readReg16 s w) := by
  cases i with
  | getf _ | rd8 _ | rdp _ | rdw _ => exact ⟨_, rfl, readReg16_respond s _ w⟩
  | setf _ _ => exact ⟨_, rfl, by cases w <;> rfl⟩
  | wr8 r v => exact ⟨_, rfl, (readReg16_respondZero _ w).trans (readReg16_writeReg8 s r v w)⟩
  | wrp p v => exact ⟨_, rfl, (readReg16_respondZero _ w).trans (readReg16_writePair s p v w)⟩
  | wrw w' v =>
    refine ⟨_, rfl, ?_⟩
    rw [readReg16_respondZero, readReg16_writeReg16, storedWord, apply_ite (Option.getD · (readReg16 s w))]
    simp only [eq_comm (a := w), Option.getD_some, Option.getD_none]

/-- Every command completes and leaves the pins to come as they are: it says nothing of the next command (log 2). -/
theorem exec_port (i : Instr) (s : State) : ∃ t, exec i s = .next t ∧ t.port = s.port := by
  cases i with
  | getf _ | setf _ _ | rd8 _ | rdp _ | rdw _ => exact ⟨_, rfl, rfl⟩
  | wr8 r v => exact ⟨_, rfl, writeReg8_port s v r⟩
  | wrp p v => exact ⟨_, rfl, writePair_port s v p⟩
  | wrw w v => exact ⟨_, rfl, writeReg16_port s v w⟩

theorem port_of_exec {i : Instr} {s t : State} (h : exec i s = .next t) : t.port = s.port := by
  obtain ⟨t', ht', hport⟩ := exec_port i s
  obtain rfl := Host.Outcome.next.inj (ht'.symm.trans h)
  exact hport

/-- A command keeps a 16-bit register, or is the `WRW` of it and leaves its operand there. -/
theorem readReg16_of_exec {i : Instr} {s t : State} (h : exec i s = .next t) (w : Reg16) :
    readReg16 t w = readReg16 s w ∨ ∃ v, i = .wrw w v ∧ readReg16 t w = v := by
  obtain ⟨t', ht', hval⟩ := exec_readReg16 i s w
  obtain rfl := Host.Outcome.next.inj (ht'.symm.trans h)
  cases hstored : storedWord w i with
  | none => exact .inl (by rw [hval, hstored, Option.getD_none])
  | some v => exact .inr ⟨v, storedWord_eq_some_iff.mp hstored, by rw [hval, hstored, Option.getD_some]⟩

theorem exec_wrw_pc (s : State) (v : Word) :
    exec (.wrw .pc v) s = .next { s with regs := { s.regs with pc := v }, rdata := 0x0000#16 } := rfl

/-- Settles O50: a reserved word changes neither `pc` nor the pins, and of the commands only `WRW pc` stores in `pc`. -/
theorem noCommandTransfersControl : Obligations.NoCommandTransfersControl := by
  refine ⟨fun s t c h => ?_, exec_wrw_pc⟩
  obtain hreserved | ⟨i, hdec, hexec⟩ := stepCommand_cases s c
  · obtain rfl := Host.Outcome.next.inj (hreserved.symm.trans h)
    exact ⟨rfl, .inl rfl⟩
  · have ht := hexec.symm.trans h
    refine ⟨port_of_exec ht, (readReg16_of_exec ht .pc).imp_right ?_⟩
    rintro ⟨v, rfl, hv⟩
    exact ⟨v, hdec, hv⟩

end Sys2Proof.Proofs
end

section
/-! PROOFS. The step is total and no fault exists (`60_exceptions.md` R89): one rising edge answers a next state whatever
its pins carry; the abstract step on a command is `stepEvent_next`. -/

namespace Sys2Proof.Proofs

open Sys2Proof.Machine Sys2Proof.Laws

/-- The rising edge completes on every setting of the input pins. -/
theorem edge_next (s : State) (p : PortCycle) : ∃ t, edge s p = .next t := by
  obtain ⟨-, hreset⟩ | ⟨-, -, hidle⟩ | ⟨-, -, -, hreserved⟩ | ⟨-, -, i, -, hexec⟩ := edge_cases s p
  · exact ⟨_, hreset⟩
  · exact ⟨_, hidle⟩
  · exact ⟨_, hreserved⟩
  · obtain ⟨t, ht, -⟩ := exec_port i s
    exact ⟨t, hexec.trans ht⟩

/-- Settles O17: the step is an edge, the command step an abstract step, and both complete; `Fault` has no constructor. -/
theorem noStepEverStops : Obligations.NoStepEverStops := by
  refine ⟨fun s => edge_next (consumePins s) (currentPins s),
    fun s cmd wdata => stepEvent_next s (.command ⟨cmd, wdata⟩), ?_⟩
  intro fault
  cases fault

end Sys2Proof.Proofs
end

section
/-! PROOFS. The decoder and the encoder (`30_encoding.md` sections 2 to 4): what a command word and a write datum decode
to is assembled from what the word alone stands for, and that is compared with the encoder and with the opcode table. -/

namespace Sys2Proof.Proofs

open Sys2Proof.Machine Sys2Proof.Laws

/-! ## A word and its operand -/

/-- The instruction with its immediate taken from `wdata` (R50); `decode_eq_inConfig` ties it to the decoder. -/
def withWdata (w : Word) : Instr → Instr
  | .wr8 r _ => .wr8 r (splitLow w)
  | .wrp p _ => .wrp p w
  | .wrw x _ => .wrw x w
  | .getf k => .getf k
  | .setf k v => .setf k v
  | .rd8 r => .rd8 r
  | .rdp p => .rdp p
  | .rdw x => .rdw x

/-- What a word decodes to in a configuration, with `wdata` beside it, from what the word alone stands for. -/
def inConfig (hasHL : Bool) (w : Word) : Decoded → Decoded
  | .command i => ifPresent (i.wellFormed hasHL) (withWdata w i)
  | .reserved why => .reserved why

/-- What the command word alone stands for: every register exists and the operand is zero. -/
def decodeWord (cmd : Byte) : Decoded := decode true { cmd := cmd, wdata := 0x0000#16 }

theorem reg8_present_true (r : Reg8) : r.present true = true := by cases r <;> rfl

theorem inConfig_command (hasHL : Bool) (w : Word) (i : Instr) :
    inConfig hasHL w (.command i) = ifPresent (i.wellFormed hasHL) (withWdata w i) := rfl

theorem inConfig_ifZero (hasHL : Bool) (w : Word) (mbz : Bool) (d : Decoded) :
    inConfig hasHL w (ifZero mbz d) = ifZero mbz (inConfig hasHL w d) := by
  cases mbz <;> rfl

theorem inConfig_reserved (hasHL : Bool) (w : Word) (why : ReservedWord) :
    inConfig hasHL w (.reserved why) = .reserved why := rfl

theorem ifPresent_true (i : Instr) : ifPresent true i = .command i := rfl

/-- `wdata` is an operand, never part of the opcode (R59): the word decides the row and what is reserved. -/
theorem decode_eq_inConfig (hasHL : Bool) (c : Command) : decode hasHL c = inConfig hasHL c.wdata (decodeWord c.cmd) := by
  simp only [decodeWord, decode]
  split
  · rfl
  · split <;> simp only [inConfig_ifZero, inConfig_command, inConfig_reserved, withWdata, Instr.wellFormed,
      ifPresent_true, reg8_present_true, ifPresent_present_true]

/-- The decoder evaluated on the 40 words of the table. -/
theorem decodeWord_encodeCmd (i : Instr) : decodeWord (encodeCmd i) = .command (withWdata 0x0000#16 i) := by
  cases i with
  | getf k => cases k <;> rfl
  | setf k v => cases k <;> cases v <;> rfl
  | rd8 r | wr8 r _ => simp only [encodeCmd, withWdata]; cases r <;> rfl
  | rdp p | wrp p _ => simp only [encodeCmd, withWdata]; cases p <;> rfl
  | rdw w | wrw w _ => simp only [encodeCmd, withWdata]; cases w <;> rfl

theorem withWdata_withWdata (w w' : Word) (i : Instr) : withWdata w (withWdata w' i) = withWdata w i := by
  cases i <;> rfl

theorem wellFormed_withWdata (hasHL : Bool) (w : Word) (i : Instr) :
    (withWdata w i).wellFormed hasHL = i.wellFormed hasHL := by
  cases i <;> rfl

theorem withWdata_encodeWdata (i : Instr) : withWdata (encodeWdata i) i = i := by
  cases i with
  | wr8 r v => exact congrArg (Instr.wr8 r) (splitLow_zext16 v)
  | getf _ | setf _ _ | rd8 _ | rdp _ | wrp _ _ | rdw _ | wrw _ _ => rfl

/-- Any datum beside an instruction's word: the instruction with that operand, where its registers exist. -/
theorem decode_encodeCmd (hasHL : Bool) (i : Instr) (w : Word) :
    decode hasHL { cmd := encodeCmd i, wdata := w } = ifPresent (i.wellFormed hasHL) (withWdata w i) := by
  rw [decode_eq_inConfig, decodeWord_encodeCmd, inConfig_command, wellFormed_withWdata, withWdata_withWdata]

theorem decode_encode {hasHL : Bool} {i : Instr} (hi : i.wellFormed hasHL = true) :
    decode hasHL (encode i) = .command i := by
  rw [encode, decode_encodeCmd, withWdata_encodeWdata, hi, ifPresent_true]

/-- Settles O2: the word decodes to its row and selector, the datum to the operand. -/
theorem decodeInvertsEncode : Obligations.DecodeInvertsEncode := fun _ _ => decode_encode

/-! ## From the word back to the encoding -/

/-- The instruction that a word decodes to, if it is not reserved. -/
def instr? : Decoded → Option Instr
  | .command i => some i
  | .reserved _ => none

/-- The encoder evaluated on what each of the 256 words stands for. -/
theorem encodeCmd_of_mem_instr? : ∀ cmd : Byte, ∀ i ∈ instr? (decodeWord cmd), encodeCmd i = cmd := by
  decide

theorem encodeCmd_withWdata (w : Word) (i : Instr) : encodeCmd (withWdata w i) = encodeCmd i := by
  cases i <;> rfl

theorem ifPresent_eq_command_iff {present : Bool} {i j : Instr} :
    ifPresent present i = .command j ↔ present = true ∧ i = j := by
  cases present <;> simp [ifPresent]

/-- A word decodes to an instruction exactly when it is that instruction's word and the datum gives its operand. -/
theorem decode_eq_command_iff {hasHL : Bool} {c : Command} {i : Instr} :
    decode hasHL c = .command i ↔ i.wellFormed hasHL = true ∧ encodeCmd i = c.cmd ∧ withWdata c.wdata i = i := by
  constructor
  · intro h
    rw [decode_eq_inConfig] at h
    cases hword : decodeWord c.cmd with
    | reserved why => rw [hword] at h; cases h
    | command j =>
      rw [hword, inConfig_command, ifPresent_eq_command_iff] at h
      obtain ⟨hj, rfl⟩ := h
      have hcmd : encodeCmd j = c.cmd := encodeCmd_of_mem_instr? c.cmd j (by rw [hword]; rfl)
      exact ⟨(wellFormed_withWdata hasHL _ j).trans hj, (encodeCmd_withWdata _ j).trans hcmd, withWdata_withWdata _ _ j⟩
  · rintro ⟨hi, hcmd, hw⟩
    obtain ⟨cmd, w⟩ := c
    obtain rfl : encodeCmd i = cmd := hcmd
    rw [decode_encodeCmd, hi, ifPresent_true, hw]

/-! ## The operand that the encoding keeps (`30_encoding.md` section 3) -/

theorem pairValue_and (u v x y : Byte) : pairValue u v &&& pairValue x y = pairValue (u &&& x) (v &&& y) :=
  BitVec.and_append

theorem zext16_eq_pairValue (v : Byte) : zext16 v = pairValue 0x00#8 v := by
  refine BitVec.eq_of_getLsbD_eq fun n _ => ?_
  rw [getLsbD_zext16, pairValue, BitVec.getLsbD_append]
  split
  · rfl
  · rw [BitVec.getLsbD_zero, BitVec.getLsbD_of_ge v n (by omega)]

theorem zext16_splitLow (w : Word) : zext16 (splitLow w) = w &&& 0x00FF#16 := by
  conv_rhs => rw [← pairValue_split w]
  calc zext16 (splitLow w)
      = pairValue (splitHigh w &&& 0x00#8) (splitLow w &&& 0xFF#8) := by
        rw [zext16_eq_pairValue, BitVec.and_zero, show 0xFF#8 = BitVec.allOnes 8 from rfl, BitVec.and_allOnes]
    _ = pairValue (splitHigh w) (splitLow w) &&& pairValue 0x00#8 0xFF#8 := (pairValue_and _ _ _ _).symm

/-- Settles O3: the instruction's word is the word, and its operand is what it takes of the datum. -/
theorem encodeInvertsDecode : Obligations.EncodeInvertsDecode := by
  intro hasHL c i h
  obtain ⟨hwf, hcmd, hw⟩ := decode_eq_command_iff.mp h
  refine ⟨hwf, hcmd, ?_⟩
  cases i with
  | wr8 r v =>
    obtain rfl : splitLow c.wdata = v := by injection hw
    exact zext16_splitLow c.wdata
  | wrp p v => injection hw with _ hv; exact hv.symm
  | wrw x v => injection hw with _ hv; exact hv.symm
  | getf _ | setf _ _ | rd8 _ | rdp _ | rdw _ => rfl

/-! ## The opcode table (`30_encoding.md` section 2) -/

/-- The table's rows evaluated on the 40 words of the encoder. -/
theorem matchesWord_encodeCmd_iff (i : Instr) :
    ∀ row ∈ opcodeTable, (row.matchesWord (encodeCmd i) = true ↔ row.mnemonic = mnemonic i) := by
  cases i with
  | getf k => cases k <;> decide
  | setf k v => cases k <;> cases v <;> decide
  | rd8 r | wr8 r _ => simp only [encodeCmd, mnemonic]; cases r <;> decide
  | rdp p | wrp p _ => simp only [encodeCmd, mnemonic]; cases p <;> decide
  | rdw w | wrw w _ => simp only [encodeCmd, mnemonic]; cases w <;> decide

/-- A word that matches a row is not reserved: the decoder evaluated on the 256 words. -/
theorem isSome_instr?_of_matchesWord :
    ∀ cmd : Byte, ∀ row ∈ opcodeTable, row.matchesWord cmd = true → (instr? (decodeWord cmd)).isSome = true := by
  decide

theorem exists_eq_command_of_isSome {d : Decoded} (h : (instr? d).isSome = true) : ∃ i, d = .command i := by
  cases d with
  | command i => exact ⟨i, rfl⟩
  | reserved _ => cases h

theorem wellFormed_true (i : Instr) : i.wellFormed true = true := by
  cases i with
  | rd8 r | wr8 r _ => exact reg8_present_true r
  | rdp p | wrp p _ => cases p <;> rfl
  | getf _ | setf _ _ | rdw _ | wrw _ _ => rfl

theorem mnemonic_of_decode {hasHL : Bool} {c : Command} {i : Instr} (h : decode hasHL c = .command i) :
    ∀ row ∈ opcodeTable, (row.matchesWord c.cmd = true ↔ row.mnemonic = mnemonic i) := by
  obtain ⟨-, hcmd, -⟩ := decode_eq_command_iff.mp h
  rw [← hcmd]
  exact matchesWord_encodeCmd_iff i

/-- Settles O4: an instruction's word matches the row of its mnemonic, and a word that matches a row stands for some
instruction, which a configuration has or has not. -/
theorem decodeFollowsTheOpcodeTable : Obligations.DecodeFollowsTheOpcodeTable := by
  refine fun hasHL c => ⟨fun i h => mnemonic_of_decode h, fun row hrow hmatch => ?_⟩
  obtain ⟨j, hj⟩ := exists_eq_command_of_isSome (isSome_instr?_of_matchesWord c.cmd row hrow hmatch)
  have hdecode (hasHL : Bool) : decode hasHL c = ifPresent (j.wellFormed hasHL) (withWdata c.wdata j) := by
    rw [decode_eq_inConfig, hj, inConfig_command]
  have htrue : decode true c = .command (withWdata c.wdata j) := by rw [hdecode, wellFormed_true, ifPresent_true]
  refine ⟨withWdata c.wdata j, htrue, ((mnemonic_of_decode htrue row hrow).mp hmatch).symm, ?_⟩
  rw [hdecode, wellFormed_withWdata]
  rfl

/-! ## Reserved words (`30_encoding.md` section 4) -/

/-- A word is reserved exactly when it stands for no instruction, or for one that the configuration has not. -/
theorem exists_decode_eq_reserved_iff (hasHL : Bool) (c : Command) :
    (∃ why, decode hasHL c = .reserved why) ↔ ∀ i ∈ instr? (decodeWord c.cmd), i.wellFormed hasHL = false := by
  rw [decode_eq_inConfig]
  cases decodeWord c.cmd with
  | reserved why => simp [inConfig_reserved, instr?]
  | command j => cases hj : j.wellFormed hasHL <;> simp [inConfig_command, instr?, ifPresent, hj]

/-- Settles O5: what the 256 words stand for, evaluated against the list, once for each configuration. -/
theorem reservedWordsAreExactlyThese : Obligations.ReservedWordsAreExactlyThese := by
  rintro ⟨cmd, w⟩
  simp only [exists_decode_eq_reserved_iff]
  constructor
  · revert cmd
    decide
  · revert cmd
    decide

/-! ## Ignored bits of the datum (`30_encoding.md` section 3) -/

/-- Two data that the instruction a word stands for cannot tell apart decode alike beside it. -/
theorem decode_congr_wdata (hasHL : Bool) {cmd : Byte} {u v : Word}
    (h : ∀ i, encodeCmd i = cmd → withWdata u i = withWdata v i) :
    decode hasHL { cmd := cmd, wdata := u } = decode hasHL { cmd := cmd, wdata := v } := by
  simp only [decode_eq_inConfig]
  cases hword : decodeWord cmd with
  | reserved _ => rfl
  | command j => rw [inConfig_command, inConfig_command, h j (encodeCmd_of_mem_instr? cmd j (by rw [hword]; rfl))]

/-- The row's number in the table, bits 7:4 of the word (R49). -/
def opOf : Instr → BitVec 4
  | .getf _ => 0#4
  | .setf _ _ => 1#4
  | .rd8 _ => 2#4
  | .wr8 _ _ => 3#4
  | .rdp _ => 4#4
  | .wrp _ _ => 5#4
  | .rdw _ => 6#4
  | .wrw _ _ => 7#4

theorem extractLsb'_op_encodeCmd (i : Instr) : (encodeCmd i).extractLsb' 4 4 = opOf i := by
  cases i with
  | getf k => cases k <;> rfl
  | setf k v => cases k <;> cases v <;> rfl
  | rd8 r | wr8 r _ => simp only [encodeCmd, opOf]; cases r <;> rfl
  | rdp p | wrp p _ => simp only [encodeCmd, opOf]; cases p <;> rfl
  | rdw w | wrw w _ => simp only [encodeCmd, opOf]; cases w <;> rfl

/-- Bit 4 of a word is the low bit of its row's number. -/
theorem getLsbD_four_encodeCmd (i : Instr) : (encodeCmd i).getLsbD 4 = (opOf i).getLsbD 0 := by
  rw [← extractLsb'_op_encodeCmd, BitVec.getLsbD_extractLsb']
  rfl

/-- Settles O6: the word of `WR8`, `WRP` or `WRW` is none of those that take no operand, and `WR8` takes the low byte. -/
theorem unusedWdataBitsAreIgnored : Obligations.UnusedWdataBitsAreIgnored := by
  refine fun hasHL cmd u v => ⟨fun hop => decode_congr_wdata hasHL fun i hi => ?_,
    fun hop huv => decode_congr_wdata hasHL fun i hi => ?_⟩
  · subst hi
    rw [getLsbD_four_encodeCmd, extractLsb'_op_encodeCmd] at hop
    cases i with
    | wr8 _ _ | wrp _ _ | wrw _ _ => simp [opOf] at hop
    | getf _ | setf _ _ | rd8 _ | rdp _ | rdw _ => rfl
  · subst hi
    rw [extractLsb'_op_encodeCmd] at hop
    cases i with
    | wrp _ _ | wrw _ _ => simp [opOf] at hop
    | wr8 r _ => exact congrArg (Instr.wr8 r) huv
    | getf _ | setf _ _ | rd8 _ | rdp _ | rdw _ => rfl

/-! ## Fixed words and selectors -/

/-- Settles O1: the decoder evaluated on the words that section 2 writes out. -/
theorem writtenWordsDecode : Obligations.WrittenWordsDecode := by
  unfold Obligations.WrittenWordsDecode
  decide

/-- The pair that an 8-bit register is a half of (R21). -/
def pairOf : Reg8 → Pair
  | .a | .f => .af
  | .b | .c => .bc
  | .d | .e => .de
  | .h | .l => .hl

theorem isHalf_iff (r : Reg8) (p : Pair) : (r = p.hi ∨ r = p.lo) ↔ p = pairOf r := by
  cases r <;> cases p <;> decide

/-- Settles O7: the selector tables evaluated, and the one pair of each 8-bit register. -/
theorem selectorsNameTheirStorage : Obligations.SelectorsNameTheirStorage := by
  refine ⟨fun k => ?_, fun p => ?_, fun r => ⟨pairOf r, (isHalf_iff r _).mpr rfl, fun q => (isHalf_iff r q).mp⟩, rfl, rfl⟩
  · cases k <;> decide
  · cases p <;> decide

end Sys2Proof.Proofs
end

section
/-! PROOFS. Every command as what it leaves in the registers and what it responds (`10_state.md` section 6,
`20_memory.md` section 3), and the result statements of the single commands. -/

namespace Sys2Proof.Proofs

open Sys2Proof.Machine Sys2Proof.Laws

/-! ## Effect and response -/

/-- What a command writes to the registers; `exec_eq_respond` ties it to the model. -/
def effect : Instr → State → State
  | .setf k v, s => putFlags s (setFlag s.regs.f k v)
  | .wr8 r v, s => writeReg8 s r v
  | .wrp p v, s => writePair s p v
  | .wrw w v, s => writeReg16 s w v
  | .getf _, s | .rd8 _, s | .rdp _, s | .rdw _, s => s

/-- What a command puts on `rdata`; `exec_eq_respond` ties it to the model. -/
def response : Instr → State → Word
  | .getf k, s => zextBit (getFlag s.regs.f k)
  | .rd8 r, s => zext16 (readReg8 s r)
  | .rdp p, s => readPair s p
  | .rdw w, s => readReg16 s w
  | .setf _ _, _ | .wr8 _ _, _ | .wrp _ _, _ | .wrw _ _, _ => 0x0000#16

/-- Every command completes, with its effect and its response and nothing else. -/
theorem exec_eq_respond (i : Instr) (s : State) : exec i s = .next (respond (effect i s) (response i s)) := by
  cases i with
  | getf _ | setf _ _ | rd8 _ | wr8 _ _ | rdp _ | wrp _ _ | rdw _ | wrw _ _ => rfl

theorem response_of_isWrite {i : Instr} (hi : isWrite i = true) (s : State) : response i s = 0x0000#16 := by
  cases i with
  | getf _ | rd8 _ | rdp _ | rdw _ => cases hi
  | setf _ _ | wr8 _ _ | wrp _ _ | wrw _ _ => rfl

theorem effect_of_isRead {i : Instr} (hi : isWrite i = false) (s : State) : effect i s = s := by
  cases i with
  | setf _ _ | wr8 _ _ | wrp _ _ | wrw _ _ => cases hi
  | getf _ | rd8 _ | rdp _ | rdw _ => rfl

theorem exec_of_isWrite {i : Instr} (hi : isWrite i = true) (s : State) :
    exec i s = .next (respondZero (effect i s)) := by
  rw [exec_eq_respond, response_of_isWrite hi]
  rfl

theorem effect_cfg (i : Instr) (s : State) : (effect i s).cfg = s.cfg := by
  cases i with
  | wr8 r v => exact writeReg8_cfg s v r
  | wrp p v => exact writePair_cfg s v p
  | wrw w v => exact writeReg16_cfg s v w
  | getf _ | setf _ _ | rd8 _ | rdp _ | rdw _ => rfl

theorem effect_port (i : Instr) (s : State) : (effect i s).port = s.port :=
  port_of_exec (t := respond (effect i s) (response i s)) (exec_eq_respond i s)

theorem writeReg8_respondZero (s : State) (r : Reg8) (v : Byte) :
    writeReg8 (respondZero s) r v = respondZero (writeReg8 s r v) := by
  cases r with
  | h | l => cases hHL : s.cfg.hasHL <;> simp [writeReg8, hHL, respondZero, respond]
  | a | f | b | c | d | e => rfl

theorem effect_respondZero (i : Instr) (s : State) : effect i (respondZero s) = respondZero (effect i s) := by
  cases i with
  | wr8 r v => exact writeReg8_respondZero s r v
  | wrp p v => simp only [effect, writePair, writeReg8_respondZero]
  | wrw w v => cases w <;> rfl
  | getf _ | setf _ _ | rd8 _ | rdp _ | rdw _ => rfl

/-- The response before a write command leaves no trace after it. -/
theorem exec_respondZero_of_isWrite {i : Instr} (hi : isWrite i = true) (s : State) :
    exec i (respondZero s) = .next (respondZero (effect i s)) := by
  rw [exec_of_isWrite hi, effect_respondZero]
  rfl

/-! ## Composition of write commands -/

/-- Two write commands in a row whose effects compose to the second's leave what the second alone leaves. -/
theorem exec_last_wins {i j : Instr} (hi : isWrite i = true) (hj : isWrite j = true) (s : State)
    (h : effect j (effect i s) = effect j s) :
    ∃ t u, exec i s = .next t ∧ exec j t = .next u ∧ exec j s = .next u :=
  ⟨_, _, exec_of_isWrite hi s, exec_respondZero_of_isWrite hj _, by rw [exec_of_isWrite hj, h]⟩

/-- Two write commands whose effects commute. -/
theorem exec_comm {i j : Instr} (hi : isWrite i = true) (hj : isWrite j = true) (s : State)
    (h : effect j (effect i s) = effect i (effect j s)) :
    ∃ t t' u, exec i s = .next t ∧ exec j t = .next u ∧ exec j s = .next t' ∧ exec i t' = .next u :=
  ⟨_, _, _, exec_of_isWrite hi s, exec_respondZero_of_isWrite hj _, exec_of_isWrite hj s, by
    rw [exec_respondZero_of_isWrite hi, h]⟩

theorem putFlags_putFlags (s : State) (x y : Byte) : putFlags (putFlags s x) y = putFlags s y := rfl

theorem writeReg16_writeReg16_same (s : State) (w : Reg16) (v v' : Word) :
    writeReg16 (writeReg16 s w v) w v' = writeReg16 s w v' := by
  cases w <;> rfl

theorem writePair_writePair_same (s : State) (p : Pair) (v v' : Word) :
    writePair (writePair s p v) p v' = writePair s p v' := by
  unfold writePair
  rw [writeReg8_comm _ p.lo p.hi _ _ (Pair.hi_ne_lo p p).symm, writeReg8_writeReg8_same, writeReg8_writeReg8_same]

theorem effect_effect (i : Instr) (s : State) : effect i (effect i s) = effect i s := by
  cases i with
  | getf _ | rd8 _ | rdp _ | rdw _ => rfl
  | setf k v => simp only [effect, putFlags_f, setFlag_setFlag_same, putFlags_putFlags]
  | wr8 r v => exact writeReg8_writeReg8_same s r v v
  | wrp p v => exact writePair_writePair_same s p v v
  | wrw w v => exact writeReg16_writeReg16_same s w v v

/-- Settles O54: a read command has no effect, and a write's effect twice is its effect once. -/
theorem readsArePureAndWritesIdempotent : Obligations.ReadsArePureAndWritesIdempotent := by
  refine fun i s => ⟨fun hi => ⟨response i s, ?_⟩, fun hi => ⟨_, exec_of_isWrite hi s, ?_⟩⟩
  · rw [exec_eq_respond, effect_of_isRead hi]
    rfl
  · rw [exec_respondZero_of_isWrite hi, effect_effect]

/-! ## The access matrix (`10_state.md` section 6) -/

theorem value_respond (s : State) (v : Word) (comp : Component) : comp.value (respond s v) = comp.value s := by
  cases comp with
  | byte r => exact congrArg zext16 (readReg8_respond s v r)
  | word w => exact readReg16_respond s v w

theorem readReg8_putFlags_of_ne (s : State) (x : Byte) {r : Reg8} (hr : r ≠ .f) :
    readReg8 (putFlags s x) r = readReg8 s r := by
  cases r with
  | f => exact absurd rfl hr
  | a | b | c | d | e | h | l => rfl

theorem readReg8_writePair_of_ne (s : State) {p : Pair} (v : Word) {r : Reg8} (hhi : r ≠ p.hi) (hlo : r ≠ p.lo) :
    readReg8 (writePair s p v) r = readReg8 s r := by
  rw [writePair, readReg8_writeReg8_other _ _ _ _ hlo, readReg8_writeReg8_other _ _ _ _ hhi]

/-- A byte outside the matrix's `w` marks is left. -/
theorem readReg8_effect_of_not_writes {i : Instr} {r : Reg8} (h : writes i (.byte r) = false) (s : State) :
    readReg8 (effect i s) r = readReg8 s r := by
  cases i with
  | getf _ | rd8 _ | rdp _ | rdw _ => rfl
  | setf k v => exact readReg8_putFlags_of_ne s _ (by simpa [writes] using h)
  | wr8 r' v => exact readReg8_writeReg8_other s r' r v (by simpa [writes] using h)
  | wrp p v =>
    obtain ⟨hhi, hlo⟩ : r ≠ p.hi ∧ r ≠ p.lo := by simpa [writes] using h
    exact readReg8_writePair_of_ne s v hhi hlo
  | wrw w v => exact readReg8_writeReg16 s w v r

/-- A word outside the matrix's `w` marks is left. -/
theorem readReg16_effect_of_not_writes {i : Instr} {w : Reg16} (h : writes i (.word w) = false) (s : State) :
    readReg16 (effect i s) w = readReg16 s w := by
  cases i with
  | getf _ | rd8 _ | rdp _ | rdw _ => rfl
  | setf k v => cases w <;> rfl
  | wr8 r v => exact readReg16_writeReg8 s r v w
  | wrp p v => exact readReg16_writePair s p v w
  | wrw w' v => exact (readReg16_writeReg16 s w' w v).trans (if_neg (by simpa [writes] using h))

theorem value_effect_of_not_writes {i : Instr} {comp : Component} (h : writes i comp = false) (s : State) :
    comp.value (effect i s) = comp.value s := by
  cases comp with
  | byte r => exact congrArg zext16 (readReg8_effect_of_not_writes h s)
  | word w => exact readReg16_effect_of_not_writes h s

/-- Settles O52: the frame of every command, component by component. -/
theorem unmarkedComponentsAreUnchanged : Obligations.UnmarkedComponentsAreUnchanged := by
  refine fun i s => ⟨_, exec_eq_respond i s, fun comp h => ?_, fun hi => ?_, fun hi => response_of_isWrite hi s,
    effect_cfg i s, effect_port i s⟩
  · rw [value_respond, value_effect_of_not_writes h]
  · rw [respond_regs, effect_of_isRead hi]

theorem zext16_inj {u v : Byte} : zext16 u = zext16 v ↔ u = v := by
  refine ⟨fun h => ?_, congrArg zext16⟩
  rw [← splitLow_zext16 u, h, splitLow_zext16]

/-- What `WR8` leaves in its register, whether or not the register exists. -/
theorem readReg8_writeReg8_self (s : State) (r : Reg8) (v : Byte) :
    readReg8 (writeReg8 s r v) r = if r.present s.cfg.hasHL then storedIn r v else 0x00#8 := by
  split
  · exact readReg8_writeReg8_same s r v ‹_›
  · have habsent := Bool.eq_false_of_not_eq_true ‹_›
    rw [writeReg8_absent s r v habsent, readReg8_absent s r habsent]

section
variable {s u : State} (hcfg : s.cfg = u.cfg)
include hcfg

/-- What a byte holds after a write to it depends on the written byte and the parameters alone. -/
theorem readReg8_writeReg8_congr (r : Reg8) (v : Byte) :
    readReg8 (writeReg8 s r v) r = readReg8 (writeReg8 u r v) r := by
  rw [readReg8_writeReg8_self, readReg8_writeReg8_self, hcfg]

theorem readReg8_writePair_congr {p : Pair} (v : Word) {r : Reg8} (hr : r = p.hi ∨ r = p.lo) :
    readReg8 (writePair s p v) r = readReg8 (writePair u p v) r := by
  have hcfg' : (writeReg8 s p.hi (splitHigh v)).cfg = (writeReg8 u p.hi (splitHigh v)).cfg := by
    rw [writeReg8_cfg, writeReg8_cfg, hcfg]
  obtain rfl | rfl := hr
  · simp only [writePair, readReg8_writeReg8_other _ _ _ _ (Pair.hi_ne_lo p p), readReg8_writeReg8_congr hcfg]
  · exact readReg8_writeReg8_congr hcfg' p.lo (splitLow v)

/-- A component that a command writes depends on the components that it reads. -/
theorem value_effect_congr {i : Instr} (hreads : ∀ comp, reads i comp = true → comp.value s = comp.value u)
    {comp : Component} (h : writes i comp = true) : comp.value (effect i s) = comp.value (effect i u) := by
  cases i with
  | getf _ | rd8 _ | rdp _ | rdw _ => cases h
  | setf k v =>
    cases comp with
    | word _ => cases h
    | byte r =>
      obtain rfl : r = .f := by simpa [writes] using h
      have hf : s.regs.f = u.regs.f := zext16_inj.mp (hreads (.byte .f) rfl)
      exact congrArg (fun f => zext16 (setFlag f k v)) hf
  | wr8 r v =>
    cases comp with
    | word _ => cases h
    | byte r' =>
      obtain rfl : r' = r := by simpa [writes] using h
      exact congrArg zext16 (readReg8_writeReg8_congr hcfg r' v)
  | wrp p v =>
    cases comp with
    | word _ => cases h
    | byte r => exact congrArg zext16 (readReg8_writePair_congr hcfg v (by simpa [writes] using h))
  | wrw w v =>
    cases comp with
    | byte _ => cases h
    | word w' =>
      obtain rfl : w' = w := by simpa [writes] using h
      simp only [Component.value, effect, readReg16_writeReg16, if_true]

end

/-- A command's response depends on the components that it reads. -/
theorem response_congr {i : Instr} {s u : State}
    (hreads : ∀ comp, reads i comp = true → comp.value s = comp.value u) : response i s = response i u := by
  cases i with
  | getf k =>
    have hf : s.regs.f = u.regs.f := zext16_inj.mp (hreads (.byte .f) rfl)
    exact congrArg (fun f => zextBit (getFlag f k)) hf
  | rd8 r => exact hreads (.byte r) (by simp [reads])
  | rdp p =>
    have hhi := zext16_inj.mp (hreads (.byte p.hi) (by simp [reads]))
    have hlo := zext16_inj.mp (hreads (.byte p.lo) (by simp [reads]))
    exact congrArg₂ pairValue hhi hlo
  | rdw w => exact hreads (.word w) (by simp [reads])
  | setf _ _ | wr8 _ _ | wrp _ _ | wrw _ _ => rfl

/-- Settles O53: the response and each written component, by what the command reads. -/
theorem onlyMarkedComponentsAreRead : Obligations.OnlyMarkedComponentsAreRead := by
  refine fun i s u hcfg hreads =>
    ⟨_, _, exec_eq_respond i s, exec_eq_respond i u, response_congr hreads, fun comp h => ?_⟩
  rw [value_respond, value_respond, value_effect_congr hcfg hreads h]

end Sys2Proof.Proofs
end

section
/-! PROOFS. The step (`30_encoding.md` section 4, `70_reset_and_hazards.md` sections 1 and 4): what an edge does with each
kind of pins, the invariant over an edge, and the response that the pin shows. -/

namespace Sys2Proof.Proofs

open Sys2Proof.Machine Sys2Proof.Laws

/-! ## One edge, by what its pins carry -/

theorem stepCommand_of_command {s : State} {c : Command} {i : Instr} (h : decode s.cfg.hasHL c = .command i) :
    stepCommand s c = exec i s := by
  simp only [stepCommand, h]

theorem stepCommand_of_reserved {s : State} {c : Command} {why : ReservedWord}
    (h : decode s.cfg.hasHL c = .reserved why) : stepCommand s c = .next (respondZero s) := by
  simp only [stepCommand, h]
  rfl

section
variable {s : State} {p : PortCycle}

theorem edge_of_rst (hrst : p.rst = true) : edge s p = .next (applyReset s) := if_pos hrst

theorem edge_of_cmdValid (hrst : p.rst = false) (hvalid : p.cmdValid = true) :
    edge s p = stepCommand s p.command := by
  simp [edge, hrst, hvalid]

theorem edge_of_idle (hrst : p.rst = false) (hvalid : p.cmdValid = false) : edge s p = .next (respondZero s) := by
  simp [edge, hrst, hvalid, idleCycle]

end

theorem decode_wellFormed {hasHL : Bool} {c : Command} {i : Instr} (h : decode hasHL c = .command i) :
    i.wellFormed hasHL = true :=
  (decode_eq_command_iff.mp h).left

/-- Settles O10: reset has priority on the edge, and loads the image. -/
theorem resetLoadsTheConfiguredImage : Obligations.ResetLoadsTheConfiguredImage := by
  intro s p rest hport hrst
  rw [step_cons s p rest hport, edge_of_rst hrst]
  rfl

/-- Settles O13: a command cycle runs what its word decodes to, and only instructions that exist are decoded. -/
theorem stepRunsTheDecodedInstruction : Obligations.StepRunsTheDecodedInstruction := by
  intro s p rest i hport hrst hvalid hdec
  refine ⟨decode_wellFormed hdec, ?_⟩
  rw [step_cons s p rest hport, edge_of_cmdValid hrst hvalid]
  exact stepCommand_of_command (s := { s with port := rest }) hdec

theorem event_of_cmdValid {p : PortCycle} (hrst : p.rst = false) (hvalid : p.cmdValid = true) :
    p.event = some (.command p.command) := by
  simp [PortCycle.event, hrst, hvalid]

theorem honoursContract_of_cmdValid {p : PortCycle} (hasHL : Bool) (hrst : p.rst = false) (hvalid : p.cmdValid = true) :
    p.honoursContract hasHL = (instr? (decode hasHL p.command)).isSome := by
  simp only [PortCycle.honoursContract, event_of_cmdValid hrst hvalid]
  cases decode hasHL p.command <;> rfl

/-- Settles O14: a command cycle honours the contract exactly when its word decodes to an instruction. -/
theorem contractedCyclesRunInstructions : Obligations.ContractedCyclesRunInstructions := by
  intro s p hrst hvalid
  rw [honoursContract_of_cmdValid _ hrst hvalid]
  refine ⟨fun hsome => ?_, fun hnone => ?_⟩
  · obtain ⟨i, hdec⟩ := exists_eq_command_of_isSome hsome
    exact ⟨i, decode_wellFormed hdec, hdec, (edge_of_cmdValid hrst hvalid).trans (stepCommand_of_command hdec)⟩
  · cases hdec : decode s.cfg.hasHL p.command with
    | command i => rw [hdec] at hnone; cases hnone
    | reserved why => exact ⟨why, rfl⟩

/-- Settles O15: a command cycle whose word decodes to no instruction only answers zero. -/
theorem reservedWordDoesNothing : Obligations.ReservedWordDoesNothing := by
  intro s p rest why hport hrst hvalid hdec
  rw [step_cons s p rest hport, edge_of_cmdValid hrst hvalid]
  exact stepCommand_of_reserved (s := { s with port := rest }) hdec

/-- Settles O16: an idle edge, and the idle pins of a cycle that is not listed. -/
theorem idleCycleHoldsTheState : Obligations.IdleCycleHoldsTheState := by
  refine ⟨fun s p rest hport hrst hvalid => ?_, step_nil⟩
  rw [step_cons s p rest hport, edge_of_idle hrst hvalid]
  rfl

/-! ## The invariant (`10_state.md` section 6) -/

theorem effect_keeps_inv (i : Instr) {s : State} (hs : s.Inv) : (effect i s).Inv := by
  cases i with
  | getf _ | rd8 _ | rdp _ | rdw _ => exact hs
  | setf k v => exact putFlags_setFlag_keeps_inv s k v hs
  | wr8 r v => exact writeReg8_keeps_inv s r v hs
  | wrp p v => exact writePair_keeps_inv s p v hs
  | wrw w v => exact writeReg16_keeps_inv s w v hs

theorem exec_keeps_inv {i : Instr} {s t : State} (hs : s.Inv) (h : exec i s = .next t) : t.Inv := by
  obtain rfl := Host.Outcome.next.inj ((exec_eq_respond i s).symm.trans h)
  exact respond_keeps_inv _ _ (effect_keeps_inv i hs)

theorem edge_keeps_inv {s t : State} {p : PortCycle} (hs : s.Inv) (h : edge s p = .next t) : t.Inv := by
  obtain ⟨-, he⟩ | ⟨-, -, he⟩ | ⟨-, -, -, he⟩ | ⟨-, -, i, -, he⟩ := edge_cases s p
  · obtain rfl := Host.Outcome.next.inj (he.symm.trans h)
    exact applyReset_meets_inv s
  · obtain rfl := Host.Outcome.next.inj (he.symm.trans h)
    exact respond_keeps_inv s _ hs
  · obtain rfl := Host.Outcome.next.inj (he.symm.trans h)
    exact respond_keeps_inv s _ hs
  · exact exec_keeps_inv hs (he.symm.trans h)

theorem step_next (s : State) : ∃ t, step s = .next t := edge_next (consumePins s) (currentPins s)

theorem step_keeps_inv {s t : State} (hs : s.Inv) (h : step s = .next t) : t.Inv :=
  edge_keeps_inv (s := consumePins s) hs h

/-- Settles O19: each kind of edge keeps the invariant, and every edge completes. -/
theorem everyStepKeepsTheInvariant : Obligations.EveryStepKeepsTheInvariant := by
  refine ⟨fun s t => step_keeps_inv, fun s hs => ?_⟩
  obtain ⟨t, ht⟩ := step_next s
  exact ⟨t, ht, step_keeps_inv hs ht⟩

/-- Settles O18: a fresh state is what a reset makes of any state with its parameters. -/
theorem resetStateMeetsTheInvariant : Obligations.ResetStateMeetsTheInvariant :=
  fun cfg => applyReset_meets_inv (State.afterReset cfg)

/-- Settles O11, register by register and flag by flag. -/
theorem baselineResetIsAllZeros : Obligations.BaselineResetIsAllZeros := by
  refine ⟨fun r => ?_, fun w => ?_, fun k => ?_, rfl⟩
  · cases r <;> rfl
  · cases w <;> rfl
  · cases k <;> rfl

/-! ## The response pin (`70_reset_and_hazards.md` R109) -/

theorem sameArch_port (s : State) (rest : List PortCycle) : SameArch { s with port := rest } s := ⟨rfl, rfl⟩

theorem rdataPin_of_stepCommand {s t : State} {p : PortCycle} (hrst : p.rst = false) (hvalid : p.cmdValid = true)
    (h : stepCommand s p.command = .next t) : rdataPin s p = t.rdata := by
  simp [rdataPin, hrst, hvalid, h]

theorem rdataPin_of_no_command {s : State} {p : PortCycle} (h : p.rst = true ∨ p.cmdValid = false) :
    rdataPin s p = 0x0000#16 := by
  obtain h | h := h <;> simp [rdataPin, h]

/-- Settles O24: the command answers the same before and after the pins are consumed. -/
theorem stepLeavesTheCyclesResponse : Obligations.StepLeavesTheCyclesResponse := by
  intro s t p rest hport h
  rw [step_cons s p rest hport] at h
  cases hrst : p.rst with
  | true =>
    obtain rfl := Host.Outcome.next.inj ((edge_of_rst hrst).symm.trans h)
    rw [rdataPin_of_no_command (.inl hrst), applyReset_rdata]
  | false =>
    cases hvalid : p.cmdValid with
    | false =>
      obtain rfl := Host.Outcome.next.inj ((edge_of_idle hrst hvalid).symm.trans h)
      rw [rdataPin_of_no_command (.inr hvalid), respondZero_rdata]
    | true =>
      rw [edge_of_cmdValid hrst hvalid] at h
      obtain ⟨t', u, ht', hu, -, hresp⟩ := (sameArch_port s rest).stepCommand p.command
      obtain rfl := Host.Outcome.next.inj (ht'.symm.trans h)
      rw [rdataPin_of_stepCommand hrst hvalid hu, hresp]

/-! ## Instances (`60_exceptions.md` section 5) -/

theorem stepInstance_of_next {sys : System} {n : Nat} {s t : State} (hn : sys[n]? = some s) (ht : step s = .next t) :
    stepInstance sys n = some (.next (sys.set n t)) := by
  simp only [stepInstance, hn, ht]

/-- Settles O57: the one place of the list that the step sets is its own. -/
theorem instancesShareNothing : Obligations.InstancesShareNothing := by
  intro sys n s hn
  obtain ⟨t, ht⟩ := step_next s
  obtain ⟨hlt, -⟩ := List.getElem?_eq_some_iff.mp hn
  exact ⟨sys.set n t, t, stepInstance_of_next hn ht, ht, List.getElem?_set_self hlt,
    fun m hm => List.getElem?_set_ne hm.symm⟩

end Sys2Proof.Proofs
end

section
/-! PROOFS. Runs (`70_reset_and_hazards.md` sections 1, 4 and 5): a reset makes a fresh state, and the edges at the pins
are the abstract steps. -/

namespace Sys2Proof.Proofs

open Sys2Proof.Machine Sys2Proof.Laws

/-- Settles O12: a reset state agrees with the fresh one on registers and parameters, and a run depends on no more. -/
theorem resetThenRunIsAFreshInstance : Obligations.ResetThenRunIsAFreshInstance := by
  intro s evs
  have hfresh : SameArch (applyReset s) (State.afterReset s.cfg) := ⟨rfl, rfl⟩
  obtain ⟨hfinal, hresp⟩ := hfresh.eventRun evs
  rw [eventRun_cons_of_next (t := applyReset s) rfl]
  exact ⟨hfinal.regs, congrArg (List.cons _) hresp⟩

/-! ## An edge is the abstract step of its pins -/

theorem edge_of_event_eq_some {s : State} {p : PortCycle} {ev : Event} (h : p.event = some ev) :
    edge s p = stepEvent s ev := by
  unfold PortCycle.event at h
  split at h
  · obtain rfl := Option.some.inj h
    exact edge_of_rst ‹_›
  · split at h
    · obtain rfl := Option.some.inj h
      exact edge_of_cmdValid (Bool.eq_false_of_not_eq_true ‹_›) ‹_›
    · cases h

theorem edge_of_event_eq_none {s : State} {p : PortCycle} (h : p.event = none) : edge s p = .next (respondZero s) := by
  unfold PortCycle.event at h
  split at h
  · cases h
  · split at h
    · cases h
    · exact edge_of_idle (Bool.eq_false_of_not_eq_true ‹_›) (Bool.eq_false_of_not_eq_true ‹_›)

theorem edge_port {s t : State} {p : PortCycle} (h : edge s p = .next t) : t.port = s.port := by
  obtain ⟨-, he⟩ | ⟨-, -, he⟩ | ⟨-, -, -, he⟩ | ⟨-, -, i, -, he⟩ := edge_cases s p
  · obtain rfl := Host.Outcome.next.inj (he.symm.trans h)
    rfl
  · obtain rfl := Host.Outcome.next.inj (he.symm.trans h)
    rfl
  · obtain rfl := Host.Outcome.next.inj (he.symm.trans h)
    rfl
  · exact port_of_exec (he.symm.trans h)

theorem currentPins_cons {s : State} {p : PortCycle} {rest : List PortCycle} (hport : s.port = p :: rest) :
    currentPins s = p := by
  rw [currentPins, hport]
  rfl

/-- A listed cycle: its edge completes, and the cycles after it are left. -/
theorem edge_of_port_cons {s : State} {p : PortCycle} {rest : List PortCycle} (hport : s.port = p :: rest) :
    ∃ t, step s = .next t ∧ edge { s with port := rest } p = .next t ∧ t.port = rest := by
  obtain ⟨t, ht⟩ := edge_next { s with port := rest } p
  exact ⟨t, (step_cons s p rest hport).trans ht, ht, edge_port ht⟩

theorem pinRun_succ_of_next {s t : State} (ht : step s = .next t) (n : Nat) :
    pinRun (n + 1) s = ((pinRun n t).1, (currentPins s, t.rdata) :: (pinRun n t).2) := by
  simp only [pinRun, ht]

/-! ## The run over the listed cycles -/

theorem pinRun_takes_every_cycle (ps : List PortCycle) (s : State) (hport : s.port = ps) :
    (pinRun ps.length s).1.port = [] ∧ (pinRun ps.length s).2.map Prod.fst = ps := by
  induction ps generalizing s with
  | nil => exact ⟨hport, rfl⟩
  | cons p ps ih =>
    obtain ⟨t, hstep, -, htport⟩ := edge_of_port_cons hport
    obtain ⟨hleft, hpins⟩ := ih t htport
    rw [List.length_cons, pinRun_succ_of_next hstep, List.map_cons, hpins, currentPins_cons hport]
    exact ⟨hleft, rfl⟩

theorem pinRun_idle_response (n : Nat) (s : State) :
    ∀ x ∈ (pinRun n s).2, x.1.event = none → x.2 = 0x0000#16 := by
  induction n generalizing s with
  | zero => exact fun x hx => nomatch hx
  | succ n ih =>
    obtain ⟨t, ht⟩ := step_next s
    rw [pinRun_succ_of_next ht, List.forall_mem_cons]
    refine ⟨fun hidle => ?_, ih t⟩
    obtain rfl := Host.Outcome.next.inj ((edge_of_event_eq_none hidle).symm.trans ht)
    exact respondZero_rdata (consumePins s)

/-- What the pins showed in the cycles that are not idle. -/
def eventResponses (xs : List (PortCycle × Word)) : List Word :=
  (xs.filter fun x => x.1.event.isSome).map Prod.snd

theorem eventResponses_cons_of_none {p : PortCycle} (h : p.event = none) (v : Word) (xs : List (PortCycle × Word)) :
    eventResponses ((p, v) :: xs) = eventResponses xs := by
  simp [eventResponses, h]

theorem eventResponses_cons_of_some {p : PortCycle} {ev : Event} (h : p.event = some ev) (v : Word)
    (xs : List (PortCycle × Word)) : eventResponses ((p, v) :: xs) = v :: eventResponses xs := by
  simp [eventResponses, h]

/-- The edges from a state keep step with the abstract run of their events from any state that agrees with it. -/
theorem pinRun_agrees_with_eventRun (ps : List PortCycle) {s u : State} (h : SameArch s u) (hport : s.port = ps) :
    SameArch (pinRun ps.length s).1 (eventRun u (ps.filterMap PortCycle.event)).1 ∧
    eventResponses (pinRun ps.length s).2 = (eventRun u (ps.filterMap PortCycle.event)).2 := by
  induction ps generalizing s u with
  | nil => exact ⟨h, rfl⟩
  | cons p ps ih =>
    obtain ⟨t, hstep, hedge, htport⟩ := edge_of_port_cons hport
    rw [List.length_cons, pinRun_succ_of_next hstep, currentPins_cons hport]
    cases hev : p.event with
    | none =>
      obtain rfl := Host.Outcome.next.inj ((edge_of_event_eq_none hev).symm.trans hedge)
      rw [List.filterMap_cons_none hev, eventResponses_cons_of_none hev]
      exact ih ⟨h.regs, h.cfg⟩ htport
    | some ev =>
      have hsame : SameArch { s with port := ps } u := ⟨h.regs, h.cfg⟩
      obtain ⟨t', u', ht', hu', htu, hresp⟩ := hsame.stepEvent ev
      obtain rfl := Host.Outcome.next.inj (ht'.symm.trans ((edge_of_event_eq_some hev).symm.trans hedge))
      obtain ⟨hfinal, hrest⟩ := ih htu htport
      rw [List.filterMap_cons_some hev, eventRun_cons_of_next hu', eventResponses_cons_of_some hev, hrest, hresp]
      exact ⟨hfinal, rfl⟩

/-- Settles O23: the edges keep step with the abstract run, take every cycle, and answer zero in the idle ones. -/
theorem pinsRealiseTheAbstractSteps : Obligations.PinsRealiseTheAbstractSteps := by
  intro s
  obtain ⟨hfinal, hresp⟩ := pinRun_agrees_with_eventRun s.port (u := s) ⟨rfl, rfl⟩ rfl
  obtain ⟨hleft, hpins⟩ := pinRun_takes_every_cycle s.port s rfl
  exact ⟨hfinal.regs, hleft, hresp, hpins, pinRun_idle_response s.port.length s⟩

end Sys2Proof.Proofs
end

section
/-! PROOFS. The whole next state of single commands, and the laws of the 8-bit and the flag commands (`40_flag_ops.md`
section 2, `41_reg8_ops.md` section 2): what reads back after a write, and what a write leaves. -/

namespace Sys2Proof.Proofs

open Sys2Proof.Machine Sys2Proof.Laws

/-! ## The packer, the unpacker and the mask (`10_state.md` section 2) -/

theorem unpackFlags_packFlags (q : FlagQuad) : unpackFlags (packFlags q) = q := by
  obtain ⟨z, n, h, c⟩ := q
  revert z n h c
  decide

theorem packFlags_lowNibble (q : FlagQuad) : packFlags q &&& 0x0F#8 = 0#8 := by
  obtain ⟨z, n, h, c⟩ := q
  revert z n h c
  decide

theorem maskF_packFlags (q : FlagQuad) : maskF (packFlags q) = packFlags q :=
  maskF_of_lowNibble _ (packFlags_lowNibble q)

theorem maskF_eq_self_iff (v : Byte) : maskF v = v ↔ v &&& 0x0F#8 = 0#8 :=
  ⟨fun h => h ▸ maskF_lowNibble v, maskF_of_lowNibble v⟩

theorem getFlag_eq_component (v : Byte) (k : Flag) : getFlag v k = (unpackFlags v).component k := by
  cases k <;> rfl

theorem flagQuad_ext {q q' : FlagQuad} (h : ∀ k, q.component k = q'.component k) : q = q' := by
  obtain ⟨z, n, hc, c⟩ := q
  obtain ⟨z', n', hc', c'⟩ := q'
  obtain rfl : z = z' := h .zero
  obtain rfl : n = n' := h .addition
  obtain rfl : hc = hc' := h .halfCarry
  obtain rfl : c = c' := h .carry
  rfl

theorem unpackFlags_maskF (v : Byte) : unpackFlags (maskF v) = unpackFlags v :=
  flagQuad_ext fun k => by rw [← getFlag_eq_component, ← getFlag_eq_component, getFlag_maskF]; rfl

/-- The pack of a byte's flags is the byte, masked. -/
theorem packFlags_unpackFlags (v : Byte) : packFlags (unpackFlags v) = maskF v := by
  rw [← unpackFlags_maskF]
  exact packFlags_getFlag (maskF v) (maskF_lowNibble v)

theorem getFlag_eq_true_iff (v : Byte) (k : Flag) : getFlag v k = true ↔ v &&& flagMask k ≠ 0#8 := by
  rw [flagMask, ← BitVec.twoPow_eq, BitVec.and_twoPow, getFlag]
  cases v.getLsbD (flagBit k)
  · simp
  · cases k <;> decide

/-- Settles O27, law by law; `f` is the pack of its flags because its low nibble is clear. -/
theorem packAndUnpackAreInverse : Obligations.PackAndUnpackAreInverse := by
  refine ⟨unpackFlags_packFlags, fun v => ⟨packFlags_unpackFlags v, ?_⟩,
    fun v k => ⟨getFlag_eq_component v k, getFlag_eq_true_iff v k⟩, fun s hs => (packFlags_getFlag _ hs).symm⟩
  rw [packFlags_unpackFlags]
  exact maskF_eq_self_iff v

/-! ## Whole next states -/

/-- Settles O29: the flag is the masked byte's test. -/
theorem getfReturnsTheNamedFlag : Obligations.GetfReturnsTheNamedFlag := by
  intro s k
  rw [exec_getf, zextBit]
  simp only [getFlag_eq_true_iff]
  rfl

/-- Settles O9: `CLRF` is `SETF` of 0, and the byte that `LDF` writes has a clear low nibble. -/
theorem pseudoCommandsClearAndLoadFlags : Obligations.PseudoCommandsClearAndLoadFlags := by
  refine ⟨fun s k => rfl, fun s q => ⟨_, rfl, ?_, rfl⟩⟩
  exact (unpackFlags_maskF (packFlags q)).trans (unpackFlags_packFlags q)

/-- Settles O35: the registers' bytes, and of `f` the low nibble. -/
theorem rd8ReturnsTheRegister : Obligations.Rd8ReturnsTheRegister := by
  refine ⟨fun s r => ?_, fun s hs => ⟨_, exec_eq_respond (.rd8 .f) s, ?_⟩⟩
  · rw [exec_eq_respond]
    cases r with
    | a | f | b | c | d | e => rfl
    | h | l => cases hHL : s.cfg.hasHL <;> simp [effect, response, readReg8, zext16, respond, hHL]
  · calc zext16 s.regs.f &&& 0xFF0F#16
        = pairValue 0x00#8 s.regs.f &&& pairValue 0xFF#8 0x0F#8 := by rw [zext16_eq_pairValue]; rfl
      _ = pairValue 0x00#8 (s.regs.f &&& 0x0F#8) := by rw [pairValue_and, BitVec.zero_and]
      _ = 0x0000#16 := by rw [hs]; rfl

/-- Settles O36, register by register; for `h` and `l` by the parameter. -/
theorem wr8StoresTheByte : Obligations.Wr8StoresTheByte := by
  intro s r v
  rw [exec_eq_respond]
  cases r with
  | a | f | b | c | d | e => rfl
  | h | l => cases hHL : s.cfg.hasHL <;> simp [effect, response, writeReg8, respond, hHL]

/-- Settles O41: two byte writes, and for `hl` the case of the parameter. -/
theorem wrpWritesBothHalves : Obligations.WrpWritesBothHalves := by
  refine ⟨fun s p v => ?_, fun s hHL => ?_⟩
  · rw [exec_eq_respond]
    cases p with
    | af | bc | de => rfl
    | hl =>
      cases hHL : s.cfg.hasHL <;>
        simp [effect, response, writePair, writeReg8, Pair.hi, Pair.lo, respond, splitHigh, splitLow, hHL]
  · have habsent : readPair s .hl = pairValue 0x00#8 0x00#8 :=
      congrArg₂ pairValue (readReg8_absent s .h hHL) (readReg8_absent s .l hHL)
    rw [exec_rdp, habsent]
    rfl

/-- Settles O48: each equation evaluates the command. -/
theorem rdwAndWrwMoveTheWholeRegister : Obligations.RdwAndWrwMoveTheWholeRegister :=
  ⟨fun _ => rfl, fun _ => rfl, fun _ _ => rfl, fun _ _ => rfl⟩

/-! ## The 8-bit commands (`41_reg8_ops.md` section 2) -/

theorem exec_wr8_then_rd8 {s : State} {r : Reg8} (hr : r.present s.cfg.hasHL = true) (v : Byte) :
    ∃ t u, exec (.wr8 r v) s = .next t ∧ exec (.rd8 r) t = .next u ∧ u.rdata = zext16 (storedIn r v) := by
  refine ⟨_, _, exec_eq_respond (.wr8 r v) s, exec_eq_respond (.rd8 r) _, ?_⟩
  rw [respond_rdata, response, readReg8_respond, effect, readReg8_writeReg8_same s r v hr]

/-- Settles O37: `f` reads back as the masked byte, every other register as the byte. -/
theorem rd8AfterWr8 : Obligations.Rd8AfterWr8 := by
  intro s r v hr
  obtain ⟨t, u, ht, hu, hval⟩ := exec_wr8_then_rd8 hr v
  refine ⟨t, u, ht, hu, fun hne => ?_, ?_⟩
  · rw [hval, storedIn, if_neg hne]
    rfl
  · rintro rfl
    rw [hval]
    exact ⟨rfl, zext16_inj.trans (maskF_eq_self_iff v)⟩

/-- Settles O38, from the laws of the register write. -/
theorem wr8LeavesTheRest : Obligations.Wr8LeavesTheRest := by
  refine ⟨fun s r v => ⟨_, exec_of_isWrite (i := .wr8 r v) rfl s, fun r' hr => ?_, fun w => ?_, fun hr k => ?_,
    writeReg8_cfg s v r, writeReg8_port s v r⟩, fun s r v v' => ?_, fun s r r' v v' hr => ?_⟩
  · rw [readReg8_respondZero]
    exact readReg8_writeReg8_other s r r' v hr
  · rw [readReg16_respondZero]
    exact readReg16_writeReg8 s r v w
  · exact congrArg (getFlag · k) (writeReg8_f_of_ne s r v hr)
  · exact exec_last_wins (i := .wr8 r v) (j := .wr8 r v') rfl rfl s (writeReg8_writeReg8_same s r v v')
  · exact exec_comm (i := .wr8 r v) (j := .wr8 r' v') rfl rfl s (writeReg8_comm s r r' v v' hr)

/-! ## `f` as a byte and as flags -/

theorem exec_getf_of_getFlag_eq {t : State} {k : Flag} {b : Bool} (h : getFlag t.regs.f k = b) :
    exec (.getf k) t = .next { t with rdata := zextBit b } := by
  rw [exec_getf, h]
  rfl

theorem getLsbD_zextBit (b : Bool) : (zextBit b).getLsbD 0 = b := by
  cases b <;> rfl

/-- Settles O39: each flag of the written byte is its bit, and the byte is the pack of what `GETF` answers. -/
theorem flagsAndTheByteOfFAreOneStorage : Obligations.FlagsAndTheByteOfFAreOneStorage := by
  refine ⟨fun s v => ?_, fun s hs => ?_, fun s k v => ?_⟩
  · have hflag (k : Flag) : getFlag (maskF v) k = v.getLsbD (flagBit k) := getFlag_maskF v k
    exact ⟨_, exec_of_isWrite (i := .wr8 .f v) rfl s, exec_getf_of_getFlag_eq (hflag .zero),
      exec_getf_of_getFlag_eq (hflag .addition), exec_getf_of_getFlag_eq (hflag .halfCarry),
      exec_getf_of_getFlag_eq (hflag .carry)⟩
  · refine ⟨_, _, _, _, _, exec_eq_respond (.rd8 .f) s, exec_getf s _, exec_getf s _, exec_getf s _, exec_getf s _, ?_⟩
    simp only [respond_rdata, getLsbD_zextBit, packFlags_getFlag _ hs]
    rfl
  · obtain ⟨t, u, u', _, _, ht, hu, hu', -, -, hbits, -⟩ := setf_then_reads s k v
    exact ⟨t, u, u', ht, hu, hu', hbits⟩

/-! ## `SETF` (`40_flag_ops.md` section 2) -/

theorem component_replace (q : FlagQuad) (k k' : Flag) (v : Bool) :
    (q.replace k v).component k' = if k' = k then v else q.component k' := by
  cases k <;> cases k' <;> rfl

theorem unpackFlags_setFlag (f : Byte) (k : Flag) (v : Bool) :
    unpackFlags (setFlag f k v) = (unpackFlags f).replace k v :=
  flagQuad_ext fun k' => by
    rw [component_replace, ← getFlag_eq_component, ← getFlag_eq_component, getFlag_setFlag]

theorem effect_setf_comm (s : State) {k k' : Flag} (hk : k ≠ k') (v v' : Bool) :
    effect (.setf k' v') (effect (.setf k v) s) = effect (.setf k v) (effect (.setf k' v') s) :=
  congrArg (putFlags s) (setFlag_comm s.regs.f k k' v v' hk)

theorem effect_setf_setf_same (s : State) (k : Flag) (v v' : Bool) :
    effect (.setf k v') (effect (.setf k v) s) = effect (.setf k v') s :=
  congrArg (putFlags s) (setFlag_setFlag_same s.regs.f k v v')

/-- The byte after `SETF` of each flag in the list, to its value in the quadruple. -/
def setFlags (q : FlagQuad) (ks : List Flag) (f : Byte) : Byte :=
  ks.foldl (fun f k => setFlag f k (q.component k)) f

theorem getFlag_setFlags (q : FlagQuad) (ks : List Flag) (f : Byte) (k : Flag) :
    getFlag (setFlags q ks f) k = if k ∈ ks then q.component k else getFlag f k := by
  induction ks generalizing f with
  | nil => rfl
  | cons k' ks ih =>
    rw [setFlags, List.foldl_cons, ← setFlags, ih, getFlag_setFlag]
    by_cases hks : k ∈ ks
    · simp [hks]
    · by_cases hk : k = k' <;> simp [hk, hks]

theorem setFlags_lowNibble (q : FlagQuad) (ks : List Flag) {f : Byte} (hf : f &&& 0x0F#8 = 0#8) :
    setFlags q ks f &&& 0x0F#8 = 0#8 := by
  induction ks generalizing f with
  | nil => exact hf
  | cons k ks ih => exact ih (setFlag_lowNibble f k _ hf)

/-- All four flags set, in whatever order: the pack, because nothing else of the byte is left. -/
theorem setFlags_eq_packFlags (q : FlagQuad) {ks : List Flag} (hks : ∀ k, k ∈ ks) {f : Byte}
    (hf : f &&& 0x0F#8 = 0#8) : setFlags q ks f = packFlags q := by
  rw [← packFlags_getFlag _ (setFlags_lowNibble q ks hf)]
  simp only [getFlag_setFlags, hks, if_true]
  rfl

theorem commandRun_cons_of_next {s t : State} {c : Command} (h : stepCommand s c = .next t) (cs : List Command) :
    (commandRun s (c :: cs)).1 = (commandRun t cs).1 := by
  rw [commandRun, List.map_cons, eventRun_cons_of_next (ev := .command c) h]
  rfl

/-- A command of the encoder in front of a run. -/
theorem commandRun_encode_cons {s : State} {i : Instr} (hi : i.wellFormed s.cfg.hasHL = true) (cs : List Command) :
    (commandRun s (encode i :: cs)).1 = (commandRun (respond (effect i s) (response i s)) cs).1 :=
  commandRun_cons_of_next ((stepCommand_of_command (decode_encode hi)).trans (exec_eq_respond i s)) cs

theorem commandRun_setf_regs (s : State) (q : FlagQuad) (ks : List Flag) :
    (commandRun s (ks.map fun k => encode (.setf k (q.component k)))).1.regs =
      { s.regs with f := setFlags q ks s.regs.f } := by
  induction ks generalizing s with
  | nil => rfl
  | cons k ks ih =>
    rw [List.map_cons, commandRun_encode_cons rfl, ih]
    rfl

/-- Settles O33: the laws of one and two flags from those of `setFlag`; four `SETF` by induction on their list. -/
theorem setfComposesLikeIndependentFlags : Obligations.SetfComposesLikeIndependentFlags := by
  refine ⟨fun s k k' v v' hk => ?_, fun s k v v' => ?_, fun s k v => ?_, fun s q ks hs hks => ⟨?_, ?_⟩⟩
  · obtain ⟨t, u, w, ht, hw, hu, hw'⟩ :=
      exec_comm (i := .setf k v) (j := .setf k' v') rfl rfl s (effect_setf_comm s hk v v')
    exact ⟨t, u, w, ht, hw, hu, hw'⟩
  · exact exec_last_wins (i := .setf k v) (j := .setf k v') rfl rfl s (effect_setf_setf_same s k v v')
  · exact ⟨_, exec_setf s k v, unpackFlags_setFlag s.regs.f k v⟩
  · have hall (k : Flag) : k ∈ ks := hks.mem_iff.mpr (by cases k <;> decide)
    rw [commandRun_setf_regs, setFlags_eq_packFlags q hall hs]
  · refine ⟨_, exec_of_isWrite (i := .wr8 .f (packFlags q)) rfl s, ?_⟩
    exact congrArg (fun f => { s.regs with f := f }) (maskF_packFlags q)

end Sys2Proof.Proofs
end

section
/-! PROOFS. The laws of the pair commands and of the 16-bit commands (`42_pair_ops.md` section 2, `43_word_ops.md`
section 2). -/

namespace Sys2Proof.Proofs

open Sys2Proof.Machine Sys2Proof.Laws

/-! ## The pair commands (`42_pair_ops.md` section 2) -/

theorem effect_wrp_eq_wr8_lo_hi (s : State) (p : Pair) (v : Word) :
    effect (.wrp p v) s = effect (.wr8 p.hi (splitHigh v)) (effect (.wr8 p.lo (splitLow v)) s) :=
  writeReg8_comm s p.hi p.lo _ _ (Pair.hi_ne_lo p p)

/-- Settles O42: the pair's write is by definition the two byte writes, which commute. -/
theorem pairCommandIsItsTwoByteCommands : Obligations.PairCommandIsItsTwoByteCommands := by
  refine ⟨fun s p => ⟨_, _, _, exec_rdp s p, exec_eq_respond (.rd8 p.hi) s, exec_eq_respond (.rd8 p.lo) s, ?_⟩,
    fun s p v => ⟨_, _, _, exec_of_isWrite (i := .wrp p v) rfl s, exec_of_isWrite (i := .wr8 p.hi _) rfl s,
      exec_respondZero_of_isWrite (i := .wr8 p.lo _) rfl _, exec_of_isWrite (i := .wr8 p.lo _) rfl s, ?_⟩⟩
  · simp only [respond_rdata, response, splitLow_zext16]
    rfl
  · rw [exec_respondZero_of_isWrite rfl, effect_wrp_eq_wr8_lo_hi]
    rfl

theorem pairValue_inj_right {u v w : Byte} : pairValue u v = pairValue u w ↔ v = w := by
  refine ⟨fun h => ?_, congrArg (pairValue u)⟩
  rw [← splitLow_pairValue u v, h, splitLow_pairValue]

theorem pairValue_and_mask (v : Word) : pairValue (splitHigh v) (maskF (splitLow v)) = v &&& 0xFFF0#16 := by
  conv_rhs => rw [← pairValue_split v]
  calc pairValue (splitHigh v) (maskF (splitLow v))
      = pairValue (splitHigh v &&& BitVec.allOnes 8) (splitLow v &&& 0xF0#8) := by rw [BitVec.and_allOnes]; rfl
    _ = pairValue (splitHigh v) (splitLow v) &&& pairValue (BitVec.allOnes 8) 0xF0#8 := (pairValue_and _ _ _ _).symm

theorem and_low_nibble_eq_zero_iff (v : Word) : v &&& 0x000F#16 = 0x0000#16 ↔ splitLow v &&& 0x0F#8 = 0#8 := by
  have hand : v &&& 0x000F#16 = pairValue 0x00#8 (splitLow v &&& 0x0F#8) := by
    conv_lhs => rw [← pairValue_split v]
    exact (pairValue_and _ _ 0x00#8 0x0F#8).trans (by rw [BitVec.and_zero])
  rw [hand]
  exact pairValue_inj_right (w := 0x00#8)

theorem and_high_mask_eq_self_iff (v : Word) : v &&& 0xFFF0#16 = v ↔ v &&& 0x000F#16 = 0x0000#16 := by
  rw [and_low_nibble_eq_zero_iff, ← maskF_eq_self_iff, ← pairValue_inj_right (u := splitHigh v), pairValue_and_mask,
    pairValue_split]

/-- Settles O44: the low half is masked, and so the value comes back exactly when the mask leaves it. -/
theorem afRoundTripIsMasked : Obligations.AfRoundTripIsMasked := by
  intro s v
  have hread : readPair (writePair s .af v) .af = v &&& 0xFFF0#16 :=
    (readPair_writePair rfl v).trans (pairValue_and_mask v)
  refine ⟨_, _, exec_of_isWrite (i := .wrp .af v) rfl s, exec_rdp _ .af, hread, ?_⟩
  rw [respond_rdata, readPair_respondZero, effect, hread, and_high_mask_eq_self_iff]

theorem pairOf_hi (p : Pair) : pairOf p.hi = p := by cases p <;> rfl

theorem pairOf_lo (p : Pair) : pairOf p.lo = p := by cases p <;> rfl

/-- A register that is a half of another pair is neither half of this one. -/
theorem ne_halves_of_pairOf_ne {p : Pair} {r : Reg8} (hr : pairOf r ≠ p) : r ≠ p.hi ∧ r ≠ p.lo :=
  ⟨fun h => hr (h ▸ pairOf_hi p), fun h => hr (h ▸ pairOf_lo p)⟩

theorem readReg8_writePair_of_pairOf_ne (s : State) {p : Pair} (v : Word) {r : Reg8} (hr : pairOf r ≠ p) :
    readReg8 (writePair s p v) r = readReg8 s r :=
  readReg8_writePair_of_ne s v (ne_halves_of_pairOf_ne hr).1 (ne_halves_of_pairOf_ne hr).2

theorem writePair_writeReg8_comm (s : State) {p : Pair} (v : Word) {r : Reg8} (hr : pairOf r ≠ p) (x : Byte) :
    writePair (writeReg8 s r x) p v = writeReg8 (writePair s p v) r x := by
  obtain ⟨hhi, hlo⟩ := ne_halves_of_pairOf_ne hr
  rw [writePair, writeReg8_comm s r p.hi _ _ hhi, writeReg8_comm _ r p.lo _ _ hlo, writePair]

theorem writePair_comm (s : State) {p q : Pair} (hpq : p ≠ q) (v v' : Word) :
    writePair (writePair s p v) q v' = writePair (writePair s q v') p v := by
  have hhi : pairOf p.hi ≠ q := by rwa [pairOf_hi]
  have hlo : pairOf p.lo ≠ q := by rwa [pairOf_lo]
  calc writePair (writePair s p v) q v'
      = writePair (writeReg8 (writeReg8 s p.hi (splitHigh v)) p.lo (splitLow v)) q v' := rfl
    _ = writeReg8 (writeReg8 (writePair s q v') p.hi (splitHigh v)) p.lo (splitLow v) := by
      rw [writePair_writeReg8_comm _ _ hlo, writePair_writeReg8_comm _ _ hhi]

/-- Settles O47, from the laws of the pair write. -/
theorem wrpLeavesTheRest : Obligations.WrpLeavesTheRest := by
  refine ⟨fun s p v => ⟨_, exec_of_isWrite (i := .wrp p v) rfl s, fun q hq => ?_, fun w => ?_, fun hp k => ?_,
    fun hp => ?_, writePair_cfg s v p, writePair_port s v p⟩, fun s p v v' => ?_, fun s p q v v' hpq => ?_⟩
  · have hhi : readReg8 (writePair s p v) q.hi = readReg8 s q.hi :=
      readReg8_writePair_of_pairOf_ne s v (by rwa [pairOf_hi])
    have hlo : readReg8 (writePair s p v) q.lo = readReg8 s q.lo :=
      readReg8_writePair_of_pairOf_ne s v (by rwa [pairOf_lo])
    rw [readPair_respondZero, readReg8_respondZero, readReg8_respondZero]
    exact ⟨hhi, hlo, congrArg₂ pairValue hhi hlo⟩
  · rw [readReg16_respondZero]
    exact readReg16_writePair s p v w
  · exact congrArg (getFlag · k) ((writePair_f s p v).trans (if_neg hp))
  · exact (congrArg unpackFlags ((writePair_f s p v).trans (if_pos hp))).trans (unpackFlags_maskF (splitLow v))
  · exact exec_last_wins (i := .wrp p v) (j := .wrp p v') rfl rfl s (writePair_writePair_same s p v v')
  · exact exec_comm (i := .wrp p v) (j := .wrp q v') rfl rfl s (writePair_comm s hpq v v')

/-! ## The 16-bit commands (`43_word_ops.md` section 2) -/

theorem readReg16_of_exec_of_ne_wrw {i : Instr} (hi : ∀ w v, i ≠ .wrw w v) {s t : State} (h : exec i s = .next t)
    (w : Reg16) : readReg16 t w = readReg16 s w := by
  obtain hkept | ⟨v, hwrw, -⟩ := readReg16_of_exec h w
  · exact hkept
  · exact absurd hwrw (hi w v)

/-- Settles O49, from the laws of the 16-bit register write. -/
theorem reg16RoundTripAndIndependence : Obligations.Reg16RoundTripAndIndependence := by
  refine ⟨fun s w v => ?_, fun s w v v' => ?_, fun s i hi => ?_⟩
  · have hbyte (r : Reg8) : readReg8 (respondZero (writeReg16 s w v)) r = readReg8 s r := by
      rw [readReg8_respondZero, readReg8_writeReg16]
    have hword (w' : Reg16) : readReg16 (respondZero (writeReg16 s w v)) w' = if w' = w then v else readReg16 s w' := by
      rw [readReg16_respondZero, readReg16_writeReg16]
    exact ⟨_, _, exec_of_isWrite (i := .wrw w v) rfl s, exec_eq_respond (.rdw w) _, (hword w).trans (if_pos rfl),
      fun w' hw => (hword w').trans (if_neg hw), hbyte, fun p => congrArg₂ pairValue (hbyte p.hi) (hbyte p.lo),
      fun k => congrArg (getFlag · k) (writeReg16_f s v w)⟩
  · exact exec_last_wins (i := .wrw w v) (j := .wrw w v') rfl rfl s (writeReg16_writeReg16_same s w v v')
  · have hkept := readReg16_of_exec_of_ne_wrw hi (exec_eq_respond i s)
    exact ⟨_, exec_eq_respond i s, hkept .sp, hkept .pc⟩

/-- Settles O51: an idle cycle and a reserved word keep the register, and of the commands its `WRW` alone does not. -/
theorem reg16ChangesOnlyByWrwOrReset : Obligations.Reg16ChangesOnlyByWrwOrReset := by
  intro s t p w h hne
  obtain ⟨hrst, -⟩ | ⟨-, -, he⟩ | ⟨-, -, -, he⟩ | ⟨-, hvalid, i, hdec, he⟩ := edge_cases s p
  · exact .inl hrst
  · obtain rfl := Host.Outcome.next.inj (he.symm.trans h)
    exact absurd (readReg16_respondZero s w) hne
  · obtain rfl := Host.Outcome.next.inj (he.symm.trans h)
    exact absurd (readReg16_respondZero s w) hne
  · obtain hkept | ⟨v, rfl, -⟩ := readReg16_of_exec (he.symm.trans h) w
    · exact absurd hkept hne
    · exact .inr ⟨hvalid, v, hdec⟩

end Sys2Proof.Proofs
end

section
/-! PROOFS. The snapshot (`44_snapshot.md`): each field is its register, and so the read commands agree with it and it
shows everything. -/

namespace Sys2Proof.Proofs

open Sys2Proof.Machine Sys2Proof.Laws

/-! ## The fields -/

/-- The byte fields, by the selector's number: a slice of the join that lies in one part is a slice of that part. -/
theorem extractLsb'_snapshot_reg8 (s : State) (r : Reg8) :
    (snapshot s).extractLsb' (88 - 8 * (reg8Selector r).toNat) 8 = readReg8 s r := by
  unfold snapshot
  cases r <;>
    simp (disch := decide) only [BitVec.extractLsb'_append_eq_of_le, BitVec.extractLsb'_append_eq_of_add_le] <;>
    exact BitVec.extractLsb'_eq_self

theorem extractLsb'_snapshot_reg16 (s : State) (w : Reg16) :
    (snapshot s).extractLsb' (16 - 16 * (reg16Selector w).toNat) 16 = readReg16 s w := by
  unfold snapshot
  cases w <;>
    simp (disch := decide) only [BitVec.extractLsb'_append_eq_of_le, BitVec.extractLsb'_append_eq_of_add_le] <;>
    exact BitVec.extractLsb'_eq_self

/-- Settles O55: the ten fields are the registers as they read. -/
theorem snapshotShowsEveryComponent : Obligations.SnapshotShowsEveryComponent := fun s =>
  ⟨extractLsb'_snapshot_reg8 s .a, extractLsb'_snapshot_reg8 s .f, extractLsb'_snapshot_reg8 s .b,
    extractLsb'_snapshot_reg8 s .c, extractLsb'_snapshot_reg8 s .d, extractLsb'_snapshot_reg8 s .e,
    extractLsb'_snapshot_reg8 s .h, extractLsb'_snapshot_reg8 s .l, extractLsb'_snapshot_reg16 s .sp,
    extractLsb'_snapshot_reg16 s .pc⟩

/-- A pair's field is the fields of its halves, side by side. -/
theorem extractLsb'_snapshot_pair (s : State) (p : Pair) :
    (snapshot s).extractLsb' (80 - 16 * (pairSelector p).toNat) 16 = readPair s p := by
  have hhi := extractLsb'_snapshot_reg8 s p.hi
  have hlo := extractLsb'_snapshot_reg8 s p.lo
  rw [readPair, pairValue, ← hhi, ← hlo]
  cases p <;> exact (BitVec.extractLsb'_append_extractLsb'_eq_extractLsb' (len₁ := 8) (len₂ := 8) rfl).symm

theorem getLsbD_snapshot_flag (s : State) (k : Flag) : (snapshot s).getLsbD (80 + flagBit k) = getFlag s.regs.f k := by
  have hf : (snapshot s).extractLsb' 80 8 = s.regs.f := extractLsb'_snapshot_reg8 s .f
  rw [getFlag, ← hf, BitVec.getLsbD_extractLsb', decide_eq_true (flagBit_lt k), Bool.true_and]

/-! ## The snapshot shows everything -/

/-- A register of an invariant state is what it reads, `h` and `l` too: where they are absent they are zero. -/
theorem regs_eq_of_reads {s : State} (hs : s.Inv) : s.regs =
    { a := readReg8 s .a, f := readReg8 s .f, b := readReg8 s .b, c := readReg8 s .c, d := readReg8 s .d,
      e := readReg8 s .e, h := readReg8 s .h, l := readReg8 s .l, sp := readReg16 s .sp, pc := readReg16 s .pc } := by
  obtain ⟨-, htied⟩ := hs
  have hh : readReg8 s .h = s.regs.h := by
    cases hHL : s.cfg.hasHL with
    | true => exact readReg8_h s hHL
    | false => exact (readReg8_absent s .h hHL).trans (htied hHL).1.symm
  have hl : readReg8 s .l = s.regs.l := by
    cases hHL : s.cfg.hasHL with
    | true => exact readReg8_l s hHL
    | false => exact (readReg8_absent s .l hHL).trans (htied hHL).2.symm
  rw [hh, hl]
  rfl

theorem regs_eq_of_snapshot_eq {s u : State} (hs : s.Inv) (hu : u.Inv) (h : snapshot s = snapshot u) :
    s.regs = u.regs := by
  have hbyte (r : Reg8) : readReg8 s r = readReg8 u r := by
    rw [← extractLsb'_snapshot_reg8, h, extractLsb'_snapshot_reg8]
  have hword (w : Reg16) : readReg16 s w = readReg16 u w := by
    rw [← extractLsb'_snapshot_reg16, h, extractLsb'_snapshot_reg16]
  rw [regs_eq_of_reads hs, regs_eq_of_reads hu]
  simp only [hbyte, hword]

theorem snapshot_congr {s u : State} (hHL : s.cfg.hasHL = u.cfg.hasHL) (h : s.regs = u.regs) :
    snapshot s = snapshot u := by
  simp only [snapshot, readReg8, h, hHL]

/-- Settles O56: a read command answers its field, and the fields together are the registers. -/
theorem snapshotAgreesWithTheReadCommands : Obligations.SnapshotAgreesWithTheReadCommands := by
  refine ⟨fun s p => ⟨_, exec_rdp s p, extractLsb'_snapshot_pair s p⟩,
    fun s r => ⟨_, exec_eq_respond (.rd8 r) s, ?_⟩,
    fun s w => ⟨_, exec_eq_respond (.rdw w) s, extractLsb'_snapshot_reg16 s w⟩,
    fun s k => ⟨_, exec_getf s k, ?_⟩,
    fun s u hs hu hHL => ⟨regs_eq_of_snapshot_eq hs hu, snapshot_congr hHL⟩⟩
  · exact (extractLsb'_snapshot_reg8 s r).trans (splitLow_zext16 _).symm
  · exact (getLsbD_snapshot_flag s k).trans (getLsbD_zextBit _).symm

end Sys2Proof.Proofs
end

section
/-! PROOFS. Reads and the most recent write (`20_memory.md` section 5): what a command leaves in each storage, said for
every view, then the run by induction; and every state of the invariant is reached by writes (`10_state.md` section 6). -/

namespace Sys2Proof.Proofs

open Sys2Proof.Machine Sys2Proof.Laws

/-! ## What a command leaves in a byte -/

/-- Every command leaves in a byte other than `f` what it stores there, else the old value. -/
theorem readReg8_effect (i : Instr) (s : State) {r : Reg8} (hf : r ≠ .f) (hr : r.present s.cfg.hasHL = true) :
    readReg8 (effect i s) r = (storedByte r i).getD (readReg8 s r) := by
  have hstored (v : Byte) : storedIn r v = v := if_neg hf
  cases i with
  | getf _ | rd8 _ | rdp _ | rdw _ => rfl
  | setf k v => exact readReg8_putFlags_of_ne s _ hf
  | wr8 r' v =>
    by_cases h : r' = r
    · subst h
      rw [effect, readReg8_writeReg8_same s r' v hr, hstored, storedByte, if_pos rfl, Option.getD_some]
    · rw [effect, readReg8_writeReg8_other s r' r v (Ne.symm h), storedByte, if_neg h, Option.getD_none]
  | wrp p v =>
    by_cases hhi : p.hi = r
    · subst hhi
      rw [effect, writePair, readReg8_writeReg8_other _ _ _ _ (Pair.hi_ne_lo p p),
        readReg8_writeReg8_same s p.hi _ hr, hstored, storedByte, if_pos rfl, Option.getD_some]
    · by_cases hlo : p.lo = r
      · subst hlo
        rw [effect, writePair, readReg8_writeReg8_same _ p.lo _ (by rwa [writeReg8_cfg]), hstored, storedByte,
          if_neg hhi, if_pos rfl, Option.getD_some]
      · rw [effect, readReg8_writePair_of_ne s v (Ne.symm hhi) (Ne.symm hlo), storedByte, if_neg hhi, if_neg hlo,
          Option.getD_none]
  | wrw w v => exact readReg8_writeReg16 s w v r

/-! ## A run's last write -/

/-- A storage that every command leaves as `stored` says, and that no response touches, holds after any commands what the
last of them stored there. -/
theorem commandRun_lastStored {α : Type} {cfg : Config} {view : State → α} {stored : Instr → Option α}
    (hrespond : ∀ s v, view (respond s v) = view s)
    (heffect : ∀ i s, s.cfg = cfg → view (effect i s) = (stored i).getD (view s))
    (cs : List Command) (s : State) (hcfg : s.cfg = cfg) :
    view (commandRun s cs).1 = lastStored cfg.hasHL stored (view s) cs := by
  induction cs generalizing s with
  | nil => rfl
  | cons c cs ih =>
    rw [lastStored_cons, ← hcfg]
    cases hdec : decode s.cfg.hasHL c with
    | reserved why =>
      rw [commandRun_cons_of_next (stepCommand_of_reserved hdec), ih (respondZero s) hcfg, respondZero, hrespond, hcfg]
    | command i =>
      have hnext : stepCommand s c = .next (respond (effect i s) (response i s)) :=
        (stepCommand_of_command hdec).trans (exec_eq_respond i s)
      rw [commandRun_cons_of_next hnext, ih (respond (effect i s) (response i s)) ((effect_cfg i s).trans hcfg),
        hrespond, heffect i s hcfg, hcfg]

section
variable (s : State) (cs : List Command)

theorem getFlag_commandRun (k : Flag) : getFlag (commandRun s cs).1.regs.f k =
    lastStored s.cfg.hasHL (storedFlag k) (getFlag s.regs.f k) cs := by
  refine commandRun_lastStored (view := fun s => getFlag s.regs.f k) (fun _ _ => rfl) (fun i s _ => ?_) cs s rfl
  obtain ⟨t, ht, hflag⟩ := exec_getFlag i s k
  obtain rfl := Host.Outcome.next.inj ((exec_eq_respond i s).symm.trans ht)
  exact hflag

theorem readReg16_commandRun (w : Reg16) : readReg16 (commandRun s cs).1 w =
    lastStored s.cfg.hasHL (storedWord w) (readReg16 s w) cs := by
  refine commandRun_lastStored (view := fun s => readReg16 s w) (fun s v => readReg16_respond s v w) (fun i s _ => ?_)
    cs s rfl
  obtain ⟨t, ht, hword⟩ := exec_readReg16 i s w
  obtain rfl := Host.Outcome.next.inj ((exec_eq_respond i s).symm.trans ht)
  rwa [readReg16_respond] at hword

theorem readReg8_commandRun_of_ne_f {r : Reg8} (hf : r ≠ .f) (hr : r.present s.cfg.hasHL = true) :
    readReg8 (commandRun s cs).1 r = lastByte s cs r := by
  rw [lastByte_of_ne_f s cs r hf]
  refine commandRun_lastStored (view := fun s => readReg8 s r) (fun s v => readReg8_respond s v r)
    (fun i u hcfg => readReg8_effect i u hf ?_) cs s rfl
  rwa [hcfg]

/-- What `f` holds is the pack of its flags, because the run keeps its low nibble clear. -/
theorem f_commandRun (hs : s.regs.lowNibbleClear) : (commandRun s cs).1.regs.f = lastByte s cs .f := by
  have hclear := lowNibbleStaysClearAfterAnyCommands s cs hs
  rw [← packFlags_getFlag _ hclear]
  simp only [getFlag_commandRun]
  rfl

theorem readReg8_commandRun {r : Reg8} (hr : r.present s.cfg.hasHL = true) (hs : r = .f → s.regs.lowNibbleClear) :
    readReg8 (commandRun s cs).1 r = lastByte s cs r := by
  by_cases hf : r = .f
  · subst hf
    exact f_commandRun s cs (hs rfl)
  · exact readReg8_commandRun_of_ne_f s cs hf hr

end

theorem pair_eq_af_of_lo_eq_f {p : Pair} (h : p.lo = .f) : p = .af :=
  (pairOf_lo p).symm.trans (congrArg pairOf h)

/-- Settles O25: each read answers what its storage holds, and that is the last write to it. -/
theorem readsSeeTheMostRecentWrite : Obligations.ReadsSeeTheMostRecentWrite := by
  refine fun s cs => ⟨fun r hr hs => ?_, fun p hp hs => ?_, fun k => ?_, fun w => ?_⟩
  · rw [exec_eq_respond, response, readReg8_commandRun s cs hr hs]
    rfl
  · have hhi := readReg8_commandRun s cs (present_hi hp) (fun h => absurd h (Pair.hi_ne_lo p .af))
    have hlo := readReg8_commandRun s cs (present_lo hp) (fun h => hs (pair_eq_af_of_lo_eq_f h))
    rw [exec_rdp, readPair, hhi, hlo]
    rfl
  · rw [exec_getf, getFlag_commandRun]
    rfl
  · rw [exec_eq_respond, response, readReg16_commandRun]
    rfl

/-! ## Every invariant state is reached (`10_state.md` section 6) -/

/-- The writes that load a register file: the 8-bit registers that exist, then `sp` and `pc`. -/
def loadCommands (hasHL : Bool) (x : RegisterFile) : List Instr :=
  [.wr8 .a x.a, .wr8 .f x.f, .wr8 .b x.b, .wr8 .c x.c, .wr8 .d x.d, .wr8 .e x.e] ++
    (if hasHL then [.wr8 .h x.h, .wr8 .l x.l] else []) ++ [.wrw .sp x.sp, .wrw .pc x.pc]

theorem loadCommands_wellFormed (hasHL : Bool) (x : RegisterFile) :
    ∀ i ∈ loadCommands hasHL x, i.wellFormed hasHL = true := by
  cases hasHL <;> simp [loadCommands, Instr.wellFormed, Reg8.present]

/-- A run of encoded, well-formed commands is the composition of their next states. -/
theorem commandRun_map_encode (is : List Instr) (s : State) (his : ∀ i ∈ is, i.wellFormed s.cfg.hasHL = true) :
    (commandRun s (is.map encode)).1 = is.foldl (fun s i => respond (effect i s) (response i s)) s := by
  induction is generalizing s with
  | nil => rfl
  | cons i is ih =>
    rw [List.forall_mem_cons] at his
    obtain ⟨hi, his⟩ := his
    rw [List.map_cons, commandRun_encode_cons hi, List.foldl_cons]
    refine ih _ ?_
    rwa [respond_cfg, effect_cfg]

/-- The writes evaluated: every register that exists is loaded, `f` masked. -/
theorem commandRun_loadCommands_regs (s : State) (x : RegisterFile) :
    (commandRun s ((loadCommands s.cfg.hasHL x).map encode)).1.regs =
      { x with
        f := maskF x.f
        h := if s.cfg.hasHL then x.h else s.regs.h
        l := if s.cfg.hasHL then x.l else s.regs.l } := by
  rw [commandRun_map_encode _ s (loadCommands_wellFormed _ x)]
  obtain ⟨regs, ⟨hasHL, image⟩, rdata, port⟩ := s
  cases hasHL <;> rfl

/-- So they leave the register file that they load, from a state whose absent registers are zero. -/
theorem commandRun_loadCommands_eq {s : State} {x : RegisterFile} (hx : x.lowNibbleClear)
    (htied : x.absentTied s.cfg.hasHL) (hs : s.regs.absentTied s.cfg.hasHL) :
    (commandRun s ((loadCommands s.cfg.hasHL x).map encode)).1.regs = x := by
  rw [commandRun_loadCommands_regs, maskF_of_lowNibble x.f hx]
  cases hHL : s.cfg.hasHL with
  | true => rfl
  | false =>
    obtain ⟨hh, hl⟩ := hs hHL
    obtain ⟨hxh, hxl⟩ := htied hHL
    rw [hh.trans hxh.symm, hl.trans hxl.symm]
    rfl

/-- Settles O21: the writes that load the register file, after a reset. -/
theorem everyInvariantStateIsReachable : Obligations.EveryInvariantStateIsReachable := by
  intro cfg target hclear htied
  obtain ⟨-, hfresh⟩ := resetStateMeetsTheInvariant cfg
  refine ⟨(loadCommands cfg.hasHL target).map encode, fun c hc => ?_, commandRun_loadCommands_eq hclear htied hfresh⟩
  obtain ⟨i, hi, rfl⟩ := List.mem_map.mp hc
  exact ⟨i, decode_encode (loadCommands_wellFormed cfg.hasHL target i hi)⟩

end Sys2Proof.Proofs
end

section
/-! PROOFS. The text of commands (`30_encoding.md` section 5): a text of tokens is cut where it was joined, each operand
reads back, and so does each command. -/

namespace Sys2Proof.Proofs

open Sys2Proof.Machine Sys2Proof.Laws

/-! ## Cutting a text into tokens -/

/-- A text that the cutter takes for one token. -/
def isToken (t : List Char) : Bool := !t.isEmpty && t.all fun ch => ch != ' ' && ch != ','

theorem isToken_iff {t : List Char} : isToken t = true ↔ t ≠ [] ∧ ∀ ch ∈ t, ch ≠ ' ' ∧ ch ≠ ',' := by
  simp [isToken]

theorem lex_append {t : List Char} (ht : ∀ ch ∈ t, ch ≠ ' ' ∧ ch ≠ ',') (rest cur : List Char) :
    lex (t ++ rest) cur = lex rest (cur ++ t) := by
  induction t generalizing cur with
  | nil => rw [List.nil_append, List.append_nil]
  | cons ch t ih =>
    rw [List.forall_mem_cons] at ht
    obtain ⟨⟨hspace, hcomma⟩, ht⟩ := ht
    rw [List.cons_append, lex, if_neg hspace, if_neg hcomma, ih ht, List.append_assoc, List.singleton_append]

theorem flushToken_of_ne_nil {t : List Char} (ht : t ≠ []) (rest : List (List Char)) : flushToken t rest = t :: rest := by
  cases t with
  | nil => exact absurd rfl ht
  | cons ch t => rfl

theorem lex_token {t : List Char} (ht : isToken t = true) : lex t [] = [t] := by
  obtain ⟨hne, hchars⟩ := isToken_iff.mp ht
  rw [← List.append_nil t, lex_append hchars, List.nil_append, List.append_nil]
  exact flushToken_of_ne_nil hne []

theorem lex_token_space {t : List Char} (ht : isToken t = true) (rest : List Char) :
    lex (t ++ ' ' :: rest) [] = t :: lex rest [] := by
  obtain ⟨hne, hchars⟩ := isToken_iff.mp ht
  rw [lex_append hchars]
  exact flushToken_of_ne_nil hne _

theorem lex_token_commaSpace {t : List Char} (ht : isToken t = true) (rest : List Char) :
    lex (t ++ (commaSpace ++ rest)) [] = t :: [','] :: lex rest [] := by
  obtain ⟨hne, hchars⟩ := isToken_iff.mp ht
  rw [lex_append hchars]
  exact flushToken_of_ne_nil hne _

theorem assembleChars_unary {m x : List Char} (hm : isToken m = true) (hx : isToken x = true) :
    assembleChars (m ++ ' ' :: x) = parseUnary m x := by
  rw [assembleChars, lex_token_space hm, lex_token hx]
  rfl

theorem assembleChars_binary {m x y : List Char} (hm : isToken m = true) (hx : isToken x = true) (hy : isToken y = true) :
    assembleChars (m ++ ' ' :: (x ++ (commaSpace ++ y))) = parseBinary m x y := by
  rw [assembleChars, lex_token_space hm, lex_token_commaSpace hx, lex_token hy]
  rfl

/-! ## Operands -/

theorem hexDigit?_hexChar : ∀ v : BitVec 4, hexDigit? (hexChar v) = some v := by
  decide

theorem hexChar_ne : ∀ v : BitVec 4, hexChar v ≠ ' ' ∧ hexChar v ≠ ',' := by
  decide

theorem byteOfHex?_hexByte (v : Byte) :
    byteOfHex? (hexChar (v.extractLsb' 4 4)) (hexChar (v.extractLsb' 0 4)) = some v := by
  have hjoin : v.extractLsb' 4 4 ++ v.extractLsb' 0 4 = v :=
    (BitVec.extractLsb'_append_extractLsb'_eq_extractLsb' rfl).trans BitVec.extractLsb'_eq_self
  rw [byteOfHex?, hexDigit?_hexChar, hexDigit?_hexChar]
  exact congrArg some hjoin

theorem imm8?_imm8Text (v : Byte) : imm8? (imm8Text v) = some v := byteOfHex?_hexByte v

theorem imm16?_imm16Text (v : Word) : imm16? (imm16Text v) = some v := by
  simp only [imm16Text, hexByte, List.cons_append, List.nil_append, imm16?, byteOfHex?_hexByte, pairValue_split]

theorem isToken_imm8Text (v : Byte) : isToken (imm8Text v) = true := by
  simp [isToken, imm8Text, hexByte, hexChar_ne]

theorem isToken_imm16Text (v : Word) : isToken (imm16Text v) = true := by
  simp [isToken, imm16Text, hexByte, hexChar_ne]

theorem isToken_flagText (k : Flag) : isToken (flagText k) = true := by cases k <;> rfl

theorem isToken_bitText (v : Bool) : isToken (bitText v) = true := by cases v <;> rfl

theorem isToken_reg8Text (r : Reg8) : isToken (reg8Text r) = true := by cases r <;> rfl

theorem isToken_pairText (p : Pair) : isToken (pairText p) = true := by cases p <;> rfl

theorem isToken_reg16Text (w : Reg16) : isToken (reg16Text w) = true := by cases w <;> rfl

theorem flag?_flagText (k : Flag) : flag? (flagText k) = some k := by cases k <;> decide

theorem bit?_bitText (v : Bool) : bit? (bitText v) = some v := by cases v <;> decide

theorem reg8?_reg8Text (r : Reg8) : reg8? (reg8Text r) = some r := by cases r <;> rfl

theorem pair?_pairText (p : Pair) : pair? (pairText p) = some p := by cases p <;> rfl

theorem reg16?_reg16Text (w : Reg16) : reg16? (reg16Text w) = some w := by cases w <;> rfl

/-! ## Commands -/

/-- Settles O8: the tokens of the text are the mnemonic and the operands, and each operand reads back. -/
theorem assemblingTheTextGivesTheCommand : Obligations.AssemblingTheTextGivesTheCommand := by
  intro i
  cases i with
  | getf k =>
    refine (assembleChars_unary (m := "GETF".toList) rfl (isToken_flagText k)).trans ?_
    simp [parseUnary, flag?_flagText]
  | rd8 r =>
    refine (assembleChars_unary (m := "RD8".toList) rfl (isToken_reg8Text r)).trans ?_
    simp [parseUnary, reg8?_reg8Text]
  | rdp p =>
    refine (assembleChars_unary (m := "RDP".toList) rfl (isToken_pairText p)).trans ?_
    simp [parseUnary, pair?_pairText]
  | rdw w =>
    refine (assembleChars_unary (m := "RDW".toList) rfl (isToken_reg16Text w)).trans ?_
    simp [parseUnary, reg16?_reg16Text]
  | setf k v =>
    refine (assembleChars_binary (m := "SETF".toList) rfl (isToken_flagText k) (isToken_bitText v)).trans ?_
    simp [parseBinary, flag?_flagText, bit?_bitText]
  | wr8 r v =>
    refine (assembleChars_binary (m := "WR8".toList) rfl (isToken_reg8Text r) (isToken_imm8Text v)).trans ?_
    simp [parseBinary, reg8?_reg8Text, imm8?_imm8Text]
  | wrp p v =>
    refine (assembleChars_binary (m := "WRP".toList) rfl (isToken_pairText p) (isToken_imm16Text v)).trans ?_
    simp [parseBinary, pair?_pairText, imm16?_imm16Text]
  | wrw w v =>
    refine (assembleChars_binary (m := "WRW".toList) rfl (isToken_reg16Text w) (isToken_imm16Text v)).trans ?_
    simp [parseBinary, reg16?_reg16Text, imm16?_imm16Text]

end Sys2Proof.Proofs
end
